-- ==== Sys2Proof/Word.lean ====
section
/-! DEFINITION. The word types of the core and nothing else: bytes, 16-bit words, the nibble and
address fields of an instruction word (00_scope.md R12, R13, R15). -/

namespace Sys2Proof

/-- A byte: a general register, a timer, a memory or framebuffer byte, the field kk. -/
abbrev Byte := BitVec 8

/-- A 16-bit word: an instruction word, I, pc, a stack entry, the keypad mask. -/
abbrev Word := BitVec 16

/-- A 4-bit field: a register index x or y, or the count n (30_encoding.md R104). -/
abbrev Nibble := BitVec 4

/-- The 12-bit address field nnn (30_encoding.md R104). -/
abbrev Addr := BitVec 12

end Sys2Proof
end

