-- ==== Sys2Proof/Syntax.lean ====
section
/-! DEFINITION. The syntax of the core: the instructions, one constructor for each row of
spec/opcode_table.json, in its order (30_encoding.md R106, R117, R118), and the enumeration of
the 35 operations that COST is a function of (00_scope.md R11). -/

namespace Sys2Proof

/-- The instructions. Each constructor names the identifier of 30_encoding.md R117, the word it
stands for and the rule of its meaning. -/
inductive Instr where
  /-- CLS, word 00E0, `CLS` (R270). -/
  | cls
  /-- RET, word 00EE, `RET` (R141). -/
  | ret
  /-- SYS, word 0nnn, `SYS addr` (R142). -/
  | sys (nnn : Addr)
  /-- JP, word 1nnn, `JP addr` (R143). -/
  | jp (nnn : Addr)
  /-- CALL, word 2nnn, `CALL addr` (R144). -/
  | call (nnn : Addr)
  /-- SE_imm, word 3xkk, `SE Vx, byte` (R171). -/
  | seImm (x : Nibble) (kk : Byte)
  /-- SNE_imm, word 4xkk, `SNE Vx, byte` (R172). -/
  | sneImm (x : Nibble) (kk : Byte)
  /-- SE_reg, word 5xy0, `SE Vx, Vy` (R173). -/
  | seReg (x : Nibble) (y : Nibble)
  /-- LD_imm, word 6xkk, `LD Vx, byte` (R191). -/
  | ldImm (x : Nibble) (kk : Byte)
  /-- ADD_imm, word 7xkk, `ADD Vx, byte` (R192). -/
  | addImm (x : Nibble) (kk : Byte)
  /-- LD_reg, word 8xy0, `LD Vx, Vy` (R193). -/
  | ldReg (x : Nibble) (y : Nibble)
  /-- OR, word 8xy1, `OR Vx, Vy` (R194). -/
  | orReg (x : Nibble) (y : Nibble)
  /-- AND, word 8xy2, `AND Vx, Vy` (R195). -/
  | andReg (x : Nibble) (y : Nibble)
  /-- XOR, word 8xy3, `XOR Vx, Vy` (R196). -/
  | xorReg (x : Nibble) (y : Nibble)
  /-- ADD_reg, word 8xy4, `ADD Vx, Vy` (R197). -/
  | addReg (x : Nibble) (y : Nibble)
  /-- SUB, word 8xy5, `SUB Vx, Vy` (R198). -/
  | subReg (x : Nibble) (y : Nibble)
  /-- SHR, word 8xy6, `SHR Vx {, Vy}` (R199). -/
  | shr (x : Nibble) (y : Nibble)
  /-- SUBN, word 8xy7, `SUBN Vx, Vy` (R200). -/
  | subn (x : Nibble) (y : Nibble)
  /-- SHL, word 8xyE, `SHL Vx {, Vy}` (R201). -/
  | shl (x : Nibble) (y : Nibble)
  /-- SNE_reg, word 9xy0, `SNE Vx, Vy` (R174). -/
  | sneReg (x : Nibble) (y : Nibble)
  /-- LD_I, word Annn, `LD I, addr` (R240). -/
  | ldI (nnn : Addr)
  /-- JP_V0, word Bnnn, `JP V0, addr` (R145). -/
  | jpV0 (nnn : Addr)
  /-- RND, word Cxkk, `RND Vx, byte` (R202). -/
  | rnd (x : Nibble) (kk : Byte)
  /-- DRW, word Dxyn, `DRW Vx, Vy, nibble` (R271). -/
  | drw (x : Nibble) (y : Nibble) (n : Nibble)
  /-- SKP, word Ex9E, `SKP Vx` (R301). -/
  | skp (x : Nibble)
  /-- SKNP, word ExA1, `SKNP Vx` (R302). -/
  | sknp (x : Nibble)
  /-- LD_Vx_DT, word Fx07, `LD Vx, DT` (R303). -/
  | ldVxDt (x : Nibble)
  /-- LD_Vx_K, word Fx0A, `LD Vx, K` (R304). -/
  | ldVxK (x : Nibble)
  /-- LD_DT_Vx, word Fx15, `LD DT, Vx` (R305). -/
  | ldDtVx (x : Nibble)
  /-- LD_ST_Vx, word Fx18, `LD ST, Vx` (R306). -/
  | ldStVx (x : Nibble)
  /-- ADD_I, word Fx1E, `ADD I, Vx` (R241). -/
  | addI (x : Nibble)
  /-- LD_F, word Fx29, `LD F, Vx` (R242). -/
  | ldF (x : Nibble)
  /-- LD_B, word Fx33, `LD B, Vx` (R243). -/
  | ldB (x : Nibble)
  /-- LD_MEM_Vx, word Fx55, `LD [I], Vx` (R244). -/
  | ldMemVx (x : Nibble)
  /-- LD_Vx_MEM, word Fx65, `LD Vx, [I]` (R245). -/
  | ldVxMem (x : Nibble)
  deriving DecidableEq, Repr

/-- The 35 operations, without their operands: the argument of COST (00_scope.md R11). -/
inductive Operation where
  | cls | ret | sys | jp | call | seImm | sneImm
  | seReg | ldImm | addImm | ldReg | orReg | andReg | xorReg
  | addReg | subReg | shr | subn | shl | sneReg | ldI
  | jpV0 | rnd | drw | skp | sknp | ldVxDt | ldVxK
  | ldDtVx | ldStVx | addI | ldF | ldB | ldMemVx | ldVxMem
  deriving DecidableEq, Repr

/-- The operation of an instruction: what is left when its operands are dropped. -/
def Instr.operation : Instr → Operation
  | .cls => .cls
  | .ret => .ret
  | .sys _ => .sys
  | .jp _ => .jp
  | .call _ => .call
  | .seImm _ _ => .seImm
  | .sneImm _ _ => .sneImm
  | .seReg _ _ => .seReg
  | .ldImm _ _ => .ldImm
  | .addImm _ _ => .addImm
  | .ldReg _ _ => .ldReg
  | .orReg _ _ => .orReg
  | .andReg _ _ => .andReg
  | .xorReg _ _ => .xorReg
  | .addReg _ _ => .addReg
  | .subReg _ _ => .subReg
  | .shr _ _ => .shr
  | .subn _ _ => .subn
  | .shl _ _ => .shl
  | .sneReg _ _ => .sneReg
  | .ldI _ => .ldI
  | .jpV0 _ => .jpV0
  | .rnd _ _ => .rnd
  | .drw _ _ _ => .drw
  | .skp _ => .skp
  | .sknp _ => .sknp
  | .ldVxDt _ => .ldVxDt
  | .ldVxK _ => .ldVxK
  | .ldDtVx _ => .ldDtVx
  | .ldStVx _ => .ldStVx
  | .addI _ => .addI
  | .ldF _ => .ldF
  | .ldB _ => .ldB
  | .ldMemVx _ => .ldMemVx
  | .ldVxMem _ => .ldVxMem

end Sys2Proof
end

