-- ==== Sys2Proof/Decode.lean ====
section
/-! DEFINITION. Decoding, total on every word, and the encoder, both from the tables of
30_encoding.md: fields (R104), formats (R103), Decode (R106). -/

namespace Sys2Proof

/-- What decoding a word gives: exactly one of the 35 operations, or InvalidOpcode carrying the raw
word, the only decode-time error (30_encoding.md R106, R116). -/
inductive Decoded where
  | instr (i : Instr)
  | invalidOpcode (w : Word)
  deriving DecidableEq, Repr

/-- The field op, w[15:12], the opcode class (30_encoding.md R102, R104). -/
def fieldOp (w : Word) : Nibble := w.extractLsb' 12 4

/-- The field x, w[11:8] (30_encoding.md R104). -/
def fieldX (w : Word) : Nibble := w.extractLsb' 8 4

/-- The field y, w[7:4] (30_encoding.md R104). -/
def fieldY (w : Word) : Nibble := w.extractLsb' 4 4

/-- The field n, w[3:0] (30_encoding.md R104). -/
def fieldN (w : Word) : Nibble := w.extractLsb' 0 4

/-- The field kk, w[7:0] (30_encoding.md R104). -/
def fieldKk (w : Word) : Byte := w.extractLsb' 0 8

/-- The field nnn, w[11:0] (30_encoding.md R104). -/
def fieldNnn (w : Word) : Addr := w.extractLsb' 0 12

/-- Class 0x0: two exact words, every other one SYS (30_encoding.md R107). -/
def decodeClass0 (w : Word) : Decoded :=
  if w = 0x00E0 then .instr .cls
  else if w = 0x00EE then .instr .ret
  else .instr (.sys (fieldNnn w))

/-- Class 0x5: valid only when n = 0 (30_encoding.md R109). -/
def decodeClass5 (w : Word) : Decoded :=
  if fieldN w = 0 then .instr (.seReg (fieldX w) (fieldY w)) else .invalidOpcode w

/-- Class 0x8: the function code is n (30_encoding.md R108). -/
def decodeClass8 (w : Word) : Decoded :=
  match (fieldN w).toNat with
  | 0x0 => .instr (.ldReg (fieldX w) (fieldY w))
  | 0x1 => .instr (.orReg (fieldX w) (fieldY w))
  | 0x2 => .instr (.andReg (fieldX w) (fieldY w))
  | 0x3 => .instr (.xorReg (fieldX w) (fieldY w))
  | 0x4 => .instr (.addReg (fieldX w) (fieldY w))
  | 0x5 => .instr (.subReg (fieldX w) (fieldY w))
  | 0x6 => .instr (.shr (fieldX w) (fieldY w))
  | 0x7 => .instr (.subn (fieldX w) (fieldY w))
  | 0xE => .instr (.shl (fieldX w) (fieldY w))
  | _ => .invalidOpcode w

/-- Class 0x9: valid only when n = 0 (30_encoding.md R109). -/
def decodeClass9 (w : Word) : Decoded :=
  if fieldN w = 0 then .instr (.sneReg (fieldX w) (fieldY w)) else .invalidOpcode w

/-- Class 0xE: the function code is kk (30_encoding.md R110). -/
def decodeClassE (w : Word) : Decoded :=
  match (fieldKk w).toNat with
  | 0x9E => .instr (.skp (fieldX w))
  | 0xA1 => .instr (.sknp (fieldX w))
  | _ => .invalidOpcode w

/-- Class 0xF: the function code is kk (30_encoding.md R111). -/
def decodeClassF (w : Word) : Decoded :=
  match (fieldKk w).toNat with
  | 0x07 => .instr (.ldVxDt (fieldX w))
  | 0x0A => .instr (.ldVxK (fieldX w))
  | 0x15 => .instr (.ldDtVx (fieldX w))
  | 0x18 => .instr (.ldStVx (fieldX w))
  | 0x1E => .instr (.addI (fieldX w))
  | 0x29 => .instr (.ldF (fieldX w))
  | 0x33 => .instr (.ldB (fieldX w))
  | 0x55 => .instr (.ldMemVx (fieldX w))
  | 0x65 => .instr (.ldVxMem (fieldX w))
  | _ => .invalidOpcode w

/-- Decode(w): it selects on op, then on the function field of op's format (30_encoding.md R106). A
field of 4 bits has no value above 0xF, so the last arm is never taken; it rejects the word. -/
def decode (w : Word) : Decoded :=
  match (fieldOp w).toNat with
  | 0x0 => decodeClass0 w
  | 0x1 => .instr (.jp (fieldNnn w))
  | 0x2 => .instr (.call (fieldNnn w))
  | 0x3 => .instr (.seImm (fieldX w) (fieldKk w))
  | 0x4 => .instr (.sneImm (fieldX w) (fieldKk w))
  | 0x5 => decodeClass5 w
  | 0x6 => .instr (.ldImm (fieldX w) (fieldKk w))
  | 0x7 => .instr (.addImm (fieldX w) (fieldKk w))
  | 0x8 => decodeClass8 w
  | 0x9 => decodeClass9 w
  | 0xA => .instr (.ldI (fieldNnn w))
  | 0xB => .instr (.jpV0 (fieldNnn w))
  | 0xC => .instr (.rnd (fieldX w) (fieldKk w))
  | 0xD => .instr (.drw (fieldX w) (fieldY w) (fieldN w))
  | 0xE => decodeClassE w
  | 0xF => decodeClassF w
  | _ => .invalidOpcode w

/-- The instruction word of two consecutive bytes, big-endian: the byte at the lower address holds
bits 15:8 (20_memory.md R76). -/
def wordOfBytes (first second : Byte) : Word := first ++ second

/-- The byte at the lower address of a word (20_memory.md R76). -/
def firstByte (w : Word) : Byte := w.extractLsb' 8 8

/-- The byte at the higher address of a word (20_memory.md R76). -/
def secondByte (w : Word) : Byte := w.extractLsb' 0 8

/-- Decoding the two bytes an instruction is fetched from (30_encoding.md R100). -/
def decodeBytes (first second : Byte) : Decoded := decode (wordOfBytes first second)

/-- What the decoder reads from the instruction whose bits are `w`, numbered as
spec/opcode_table.json numbers them: every instruction is one 16-bit word. -/
def decodeTableWord (nbits w : Nat) : Option Instr :=
  let word : Word := BitVec.ofNat 16 (w % 2 ^ nbits)
  match decodeBytes (firstByte word) (secondByte word) with
  | .instr i => some i
  | .invalidOpcode _ => none

/-- Format NNN: op, then the 12-bit address (30_encoding.md R103). -/
def encNNN (op : Nibble) (nnn : Addr) : Word := op ++ nnn

/-- Format XKK: op, x, then the immediate byte; format XF has a function code in its place
(30_encoding.md R103). -/
def encXKK (op x : Nibble) (kk : Byte) : Word := op ++ (x ++ kk)

/-- Format XYN: op, x, y, then the count; format XYS has a function code in its place
(30_encoding.md R103). -/
def encXYN (op x y n : Nibble) : Word := op ++ (x ++ (y ++ n))

/-- The word of an instruction, from the patterns of 30_encoding.md R117. -/
def encode : Instr → Word
  | .cls => 0x00E0
  | .ret => 0x00EE
  | .sys nnn => encNNN 0x0 nnn
  | .jp nnn => encNNN 0x1 nnn
  | .call nnn => encNNN 0x2 nnn
  | .seImm x kk => encXKK 0x3 x kk
  | .sneImm x kk => encXKK 0x4 x kk
  | .seReg x y => encXYN 0x5 x y 0x0
  | .ldImm x kk => encXKK 0x6 x kk
  | .addImm x kk => encXKK 0x7 x kk
  | .ldReg x y => encXYN 0x8 x y 0x0
  | .orReg x y => encXYN 0x8 x y 0x1
  | .andReg x y => encXYN 0x8 x y 0x2
  | .xorReg x y => encXYN 0x8 x y 0x3
  | .addReg x y => encXYN 0x8 x y 0x4
  | .subReg x y => encXYN 0x8 x y 0x5
  | .shr x y => encXYN 0x8 x y 0x6
  | .subn x y => encXYN 0x8 x y 0x7
  | .shl x y => encXYN 0x8 x y 0xE
  | .sneReg x y => encXYN 0x9 x y 0x0
  | .ldI nnn => encNNN 0xA nnn
  | .jpV0 nnn => encNNN 0xB nnn
  | .rnd x kk => encXKK 0xC x kk
  | .drw x y n => encXYN 0xD x y n
  | .skp x => encXKK 0xE x 0x9E
  | .sknp x => encXKK 0xE x 0xA1
  | .ldVxDt x => encXKK 0xF x 0x07
  | .ldVxK x => encXKK 0xF x 0x0A
  | .ldDtVx x => encXKK 0xF x 0x15
  | .ldStVx x => encXKK 0xF x 0x18
  | .addI x => encXKK 0xF x 0x1E
  | .ldF x => encXKK 0xF x 0x29
  | .ldB x => encXKK 0xF x 0x33
  | .ldMemVx x => encXKK 0xF x 0x55
  | .ldVxMem x => encXKK 0xF x 0x65

/-- The column "match" of spec/opcode_table.json. -/
def Operation.tableMatch : Operation → Word
  | .cls => 0x00E0
  | .ret => 0x00EE
  | .sys => 0x0000
  | .jp => 0x1000
  | .call => 0x2000
  | .seImm => 0x3000
  | .sneImm => 0x4000
  | .seReg => 0x5000
  | .ldImm => 0x6000
  | .addImm => 0x7000
  | .ldReg => 0x8000
  | .orReg => 0x8001
  | .andReg => 0x8002
  | .xorReg => 0x8003
  | .addReg => 0x8004
  | .subReg => 0x8005
  | .shr => 0x8006
  | .subn => 0x8007
  | .shl => 0x800E
  | .sneReg => 0x9000
  | .ldI => 0xA000
  | .jpV0 => 0xB000
  | .rnd => 0xC000
  | .drw => 0xD000
  | .skp => 0xE09E
  | .sknp => 0xE0A1
  | .ldVxDt => 0xF007
  | .ldVxK => 0xF00A
  | .ldDtVx => 0xF015
  | .ldStVx => 0xF018
  | .addI => 0xF01E
  | .ldF => 0xF029
  | .ldB => 0xF033
  | .ldMemVx => 0xF055
  | .ldVxMem => 0xF065

/-- The column "mask" of spec/opcode_table.json. -/
def Operation.tableMask : Operation → Word
  | .cls => 0xFFFF
  | .ret => 0xFFFF
  | .sys => 0xF000
  | .jp => 0xF000
  | .call => 0xF000
  | .seImm => 0xF000
  | .sneImm => 0xF000
  | .seReg => 0xF00F
  | .ldImm => 0xF000
  | .addImm => 0xF000
  | .ldReg => 0xF00F
  | .orReg => 0xF00F
  | .andReg => 0xF00F
  | .xorReg => 0xF00F
  | .addReg => 0xF00F
  | .subReg => 0xF00F
  | .shr => 0xF00F
  | .subn => 0xF00F
  | .shl => 0xF00F
  | .sneReg => 0xF00F
  | .ldI => 0xF000
  | .jpV0 => 0xF000
  | .rnd => 0xF000
  | .drw => 0xF000
  | .skp => 0xF0FF
  | .sknp => 0xF0FF
  | .ldVxDt => 0xF0FF
  | .ldVxK => 0xF0FF
  | .ldDtVx => 0xF0FF
  | .ldStVx => 0xF0FF
  | .addI => 0xF0FF
  | .ldF => 0xF0FF
  | .ldB => 0xF0FF
  | .ldMemVx => 0xF0FF
  | .ldVxMem => 0xF0FF

end Sys2Proof
end

