-- ==== Sys2Proof/Config.lean ====
section
/-! DEFINITION. What is fixed for one core instance: the parameters with a value (00_scope.md R9, R10),
the open parameters (R11) as plain data and as opaque constants, and the built-in glyph table. -/

namespace Sys2Proof

namespace Config

/-- MEM_SIZE, 4096 bytes (00_scope.md R9). -/
def memSize : Nat := 4096

/-- LOAD_ADDR, where a program is loaded and the reset value of pc (00_scope.md R9). -/
def loadAddr : Nat := 0x200

/-- FRAME_PERIOD in microseconds (00_scope.md R9). -/
def framePeriod : Int := 16666

/-- GLYPH_BASE (00_scope.md R10). DESIGN CHOICE of the spec, its decision D1 (log 20). -/
def glyphBase : Nat := 0x000

/-- FONT, the 80 glyph bytes, 5 for each digit 0 to F (10_state.md R52). PRESUMED: the spec takes the
bytes from general knowledge, its decision D2 (log 20). -/
def font : List Byte :=
  [0xF0, 0x90, 0x90, 0x90, 0xF0] ++ [0x20, 0x60, 0x20, 0x20, 0x70] ++
  [0xF0, 0x10, 0xF0, 0x80, 0xF0] ++ [0xF0, 0x10, 0xF0, 0x10, 0xF0] ++
  [0x90, 0x90, 0xF0, 0x10, 0x10] ++ [0xF0, 0x80, 0xF0, 0x10, 0xF0] ++
  [0xF0, 0x80, 0xF0, 0x90, 0xF0] ++ [0xF0, 0x10, 0x20, 0x40, 0x40] ++
  [0xF0, 0x90, 0xF0, 0x90, 0xF0] ++ [0xF0, 0x90, 0xF0, 0x10, 0xF0] ++
  [0xF0, 0x90, 0xF0, 0x90, 0x90] ++ [0xE0, 0x90, 0xE0, 0x90, 0xE0] ++
  [0xF0, 0x80, 0x80, 0x80, 0xF0] ++ [0xE0, 0x90, 0x90, 0x90, 0xE0] ++
  [0xF0, 0x80, 0xF0, 0x80, 0xF0] ++ [0xF0, 0x80, 0xF0, 0x80, 0x80]

end Config

/-- GLYPH_INDEX_MODE, an open parameter (00_scope.md R11; 43_index_memory.md R242; log 15). -/
inductive GlyphIndexMode where
  /-- The digit is the low nibble of Vx: the default. -/
  | mask4
  /-- The digit is the whole byte Vx. -/
  | full
  deriving DecidableEq, Repr

/-- KEY_RANGE_POLICY, an open parameter (00_scope.md R11; 45_keys_timers.md R300; log 16). -/
inductive KeyRangePolicy where
  /-- A key number above 0xF raises KeyIndexOutOfRange: the default. -/
  | fatal
  /-- The key number is reduced to its low nibble. -/
  | mask4
  /-- A key above 0xF reads as not pressed. -/
  | notPressed
  deriving DecidableEq, Repr

/-- A cost below COST(DRW), as its microseconds less one: every open cost is at least 1 and less than
22734 (48_frame_stepper.md R347; log 5), so `c` stands for the cost `c + 1`. -/
abbrev OpenCost := Fin 22733

/-- The 33 open values of COST (00_scope.md R11), one for each operation but CLS and DRW. -/
structure CostTable where
  ret : OpenCost
  sys : OpenCost
  jp : OpenCost
  call : OpenCost
  seImm : OpenCost
  sneImm : OpenCost
  seReg : OpenCost
  ldImm : OpenCost
  addImm : OpenCost
  ldReg : OpenCost
  orReg : OpenCost
  andReg : OpenCost
  xorReg : OpenCost
  addReg : OpenCost
  subReg : OpenCost
  shr : OpenCost
  subn : OpenCost
  shl : OpenCost
  sneReg : OpenCost
  ldI : OpenCost
  jpV0 : OpenCost
  rnd : OpenCost
  skp : OpenCost
  sknp : OpenCost
  ldVxDt : OpenCost
  ldVxK : OpenCost
  ldDtVx : OpenCost
  ldStVx : OpenCost
  addI : OpenCost
  ldF : OpenCost
  ldB : OpenCost
  ldMemVx : OpenCost
  ldVxMem : OpenCost
  deriving DecidableEq, Repr, Inhabited

/-- The open parameters of one core instance (00_scope.md R11): no step changes them (10_state.md R56). -/
structure Params where
  glyphIndexMode : GlyphIndexMode
  keyRangePolicy : KeyRangePolicy
  costs : CostTable
  deriving DecidableEq, Repr

/-- COST(op) in microseconds (48_frame_stepper.md R347): CLS and DRW have the two values the spec
gives (log 6), every other operation its open one. -/
def Params.cost (p : Params) : Operation → Nat
  | .cls => 109
  | .ret => p.costs.ret.val + 1
  | .sys => p.costs.sys.val + 1
  | .jp => p.costs.jp.val + 1
  | .call => p.costs.call.val + 1
  | .seImm => p.costs.seImm.val + 1
  | .sneImm => p.costs.sneImm.val + 1
  | .seReg => p.costs.seReg.val + 1
  | .ldImm => p.costs.ldImm.val + 1
  | .addImm => p.costs.addImm.val + 1
  | .ldReg => p.costs.ldReg.val + 1
  | .orReg => p.costs.orReg.val + 1
  | .andReg => p.costs.andReg.val + 1
  | .xorReg => p.costs.xorReg.val + 1
  | .addReg => p.costs.addReg.val + 1
  | .subReg => p.costs.subReg.val + 1
  | .shr => p.costs.shr.val + 1
  | .subn => p.costs.subn.val + 1
  | .shl => p.costs.shl.val + 1
  | .sneReg => p.costs.sneReg.val + 1
  | .ldI => p.costs.ldI.val + 1
  | .jpV0 => p.costs.jpV0.val + 1
  | .rnd => p.costs.rnd.val + 1
  | .drw => 22734
  | .skp => p.costs.skp.val + 1
  | .sknp => p.costs.sknp.val + 1
  | .ldVxDt => p.costs.ldVxDt.val + 1
  | .ldVxK => p.costs.ldVxK.val + 1
  | .ldDtVx => p.costs.ldDtVx.val + 1
  | .ldStVx => p.costs.ldStVx.val + 1
  | .addI => p.costs.addI.val + 1
  | .ldF => p.costs.ldF.val + 1
  | .ldB => p.costs.ldB.val + 1
  | .ldMemVx => p.costs.ldMemVx.val + 1
  | .ldVxMem => p.costs.ldVxMem.val + 1

/-- RngState, the state of the pseudo-random generator. The type is open (00_scope.md R11); a Nat codes
every countable one (log 7). -/
abbrev RngState := Nat

/-- Seed, the construction seed. The type is open (00_scope.md R11); a Nat codes every countable one
(log 7). -/
abbrev Seed := Nat

namespace Config

/-- FREE VALUE: the 33 costs the spec leaves open, of the core that State.reset describes (log 5). -/
opaque costs : CostTable

/-- FREE VALUE: rngInit, the generator's initialiser (00_scope.md R11, log 7). -/
opaque rngInit : Seed → RngState

/-- FREE VALUE: rngNext, the generator's step: the byte drawn and the next state (00_scope.md R11, log 7). -/
opaque rngNext : RngState → Byte × RngState

/-- FREE VALUE: the seed of the core that State.reset describes (70_reset_and_hazards.md R400, log 7). -/
opaque seed : Seed

/-- The parameters of the core that State.reset describes: the spec's defaults mask4 and fatal
(00_scope.md R11) and the open costs. -/
def params : Params :=
  { glyphIndexMode := .mask4, keyRangePolicy := .fatal, costs := costs }

end Config

end Sys2Proof
end

