-- ==== Sys2Proof/Machine/State.lean ====
section
/-! DEFINITION. The state of the core as plain data (10_state.md R30), the reasons a step can stop, and
the state right after construction (70_reset_and_hazards.md R400). -/

namespace Sys2Proof.Machine

/-- mem in its one canonical form: (address, byte) pairs, addresses strictly rising, no pair equal to what
an unlisted address reads as (20_memory.md R70; log 29). `Memory.wf` of Ops.lean states the form. -/
abbrev Memory := List Host.Cell

/-- FB, 256 bytes, 8 pixels a byte, index = row * 8 + column byte (10_state.md R46). -/
abbrev Framebuffer := Vector Byte 256

/-- The six fatal errors, each with its info (60_exceptions.md R370). -/
inductive FatalError where
  /-- Code 2, raised by decode; carries the raw word (R372). -/
  | invalidOpcode (w : Word)
  /-- Code 3, raised by fetch; carries pc (R373). -/
  | programCounterOutOfBounds (pc : Word)
  /-- Code 4, raised by CALL at SP = 16; carries the CALL's pc (R374). -/
  | stackOverflow (pc : Word)
  /-- Code 5, raised by RET at SP = 0; carries the RET's pc (R375). -/
  | stackUnderflow (pc : Word)
  /-- Code 6, raised by a data access at 4096 or more; carries the address (R376). -/
  | memoryOutOfBounds (address : Nat)
  /-- Code 7, raised by SKP and SKNP under the policy fatal; carries V[x] (R377). -/
  | keyIndexOutOfRange (v : Byte)
  deriving DecidableEq, Repr

/-- The codes of the fatal errors (60_exceptions.md R370). -/
def FatalError.code : FatalError → Nat
  | .invalidOpcode _ => 2
  | .programCounterOutOfBounds _ => 3
  | .stackOverflow _ => 4
  | .stackUnderflow _ => 5
  | .memoryOutOfBounds _ => 6
  | .keyIndexOutOfRange _ => 7

/-- status (10_state.md R51). -/
inductive Status where
  | running
  | faulted (e : FatalError)
  deriving DecidableEq, Repr

/-- phase, the frame stepper's state (10_state.md R55, 48_frame_stepper.md R332). -/
inductive Phase where
  | idle
  | fetching
  | executing
  | frameComplete
  deriving DecidableEq, Repr

/-- The host's four transactions (48_frame_stepper.md R330). -/
inductive HostRequest where
  /-- Construct(seed): discard the core and make a new one (70_reset_and_hazards.md R400). -/
  | construct (seed : Seed)
  /-- LoadProgram(bytes) (70_reset_and_hazards.md R405). -/
  | loadProgram (bytes : List Byte)
  /-- StepFrame(keys) (48_frame_stepper.md R340). -/
  | stepFrame (keys : Word)
  /-- ReadFramebuffer() (48_frame_stepper.md R354). -/
  | readFramebuffer
  deriving DecidableEq, Repr

/-- What a host transaction answers (48_frame_stepper.md R330). -/
inductive HostReply where
  /-- Construct: a new core in Idle, Running. -/
  | constructed
  /-- LoadProgram: ok. -/
  | loaded
  /-- LoadProgram: ProgramTooLarge(L), code 1, recoverable (60_exceptions.md R371). -/
  | programTooLarge (length : Nat)
  /-- StepFrame: (FB, tone) (48_frame_stepper.md R348). -/
  | frame (fb : Framebuffer) (tone : Bool)
  /-- StepFrame: the fatal error that aborted the frame (48_frame_stepper.md R358). -/
  | failed (e : FatalError)
  /-- ReadFramebuffer: the 256 bytes of FB (48_frame_stepper.md R354). -/
  | framebuffer (fb : Framebuffer)
  deriving DecidableEq, Repr

/-- The state of the core (10_state.md R30), then the model's own three fields (log 2, 3, 4). -/
structure State where
  /-- mem, 4096 bytes (20_memory.md R70). -/
  mem : Memory
  /-- V0 to VF (10_state.md R31). -/
  v : Vector Byte 16
  /-- I (10_state.md R35). -/
  i : Word
  /-- pc: while an instruction executes, the address of its first byte (10_state.md R36). -/
  pc : Word
  /-- stack[0..15] (10_state.md R40). -/
  stack : Vector Word 16
  /-- SP, the number of entries in use, 0..16 (10_state.md R41). -/
  sp : Fin 17
  /-- DT (10_state.md R43). -/
  dt : Byte
  /-- ST (10_state.md R44). -/
  st : Byte
  /-- KEYS, the mask latched for the current frame (10_state.md R45). -/
  keys : Word
  /-- FB (10_state.md R46). -/
  fb : Framebuffer
  /-- tone (10_state.md R49). -/
  tone : Bool
  /-- budget, signed microseconds (10_state.md R60). -/
  budget : Int
  /-- rng (10_state.md R54). -/
  rng : RngState
  /-- status (10_state.md R51). -/
  status : Status
  /-- phase (10_state.md R55). -/
  phase : Phase
  /-- The open parameters of this core instance, which no step changes (00_scope.md R11, 10_state.md R56; log 4). -/
  params : Params
  /-- The host's transactions not yet taken, oldest first (48_frame_stepper.md R330, R356; log 2). -/
  requests : List HostRequest
  /-- The answer of the last host transaction; none while a StepFrame is in progress (48_frame_stepper.md R330; log 3). -/
  reply : Option HostReply
  deriving DecidableEq, Repr

/-- The components of the state that a fatal error leaves unspecified: every one but status and phase
(60_exceptions.md R379; 93_implementation_defined.md U1). mem stands as the bytes to write over its reset contents. -/
structure Residue where
  mem : List Host.Cell
  v : Vector Byte 16
  i : Word
  pc : Word
  stack : Vector Word 16
  sp : Fin 17
  dt : Byte
  st : Byte
  keys : Word
  fb : Framebuffer
  tone : Bool
  budget : Int
  rng : RngState
  deriving Inhabited

/-- Why the machine stops with no transition. Only a host transaction can meet this; no instruction does. -/
inductive Fault where
  /-- Raised by step where the core is Faulted with `e` and the host issues StepFrame or LoadProgram, or where a
  Faulted core stands outside Idle, which no run reaches: there is no transition, the core is stuck
  (48_frame_stepper.md R355; 93_implementation_defined.md U1; log 9). Safe: the model stops. -/
  | coreFaulted (e : FatalError)
  deriving DecidableEq, Repr

/-- Why the model refuses an instruction. -/
inductive Refusal where
  /-- Raised by exec's arm of an instruction that has no meaning yet. No arm answers it: all 35 operations
  have their meaning. Safe: the model stops. -/
  | notModelled (mnemonic : String)
  deriving DecidableEq, Repr

/-- Construct(seed) for a core with the parameters `p`: every component at its value of 10_state.md R61
(70_reset_and_hazards.md R400). The host's pending requests are the host's, not the core's. -/
def State.construct (p : Params) (seed : Seed) (requests : List HostRequest) : State :=
  { mem := []
    v := Vector.replicate 16 0
    i := 0
    pc := BitVec.ofNat 16 Config.loadAddr
    stack := Vector.replicate 16 0
    sp := 0
    dt := 0
    st := 0
    keys := 0
    fb := Vector.replicate 256 0
    tone := false
    budget := 0
    rng := Config.rngInit seed
    status := .running
    phase := .idle
    params := p
    requests := requests
    reply := some .constructed }

/-- The machine right after reset: a core just constructed, with no host request pending
(70_reset_and_hazards.md R400; log 2, 7). -/
def State.reset : State := State.construct Config.params Config.seed []

end Sys2Proof.Machine
end

