-- ==== Sys2Proof/Machine/Ops.lean ====
section
/-! DEFINITION. The named operations over memory, registers, the call stack and the framebuffer, and taking a
fatal error, the core's only exception. There is no return from one (60_exceptions.md R381). -/

namespace Sys2Proof.Machine

/-! ### Memory -/

/-- What an address that the memory does not list reads as: its reset contents, the glyph table from
GLYPH_BASE and zero elsewhere (10_state.md R53, R61; log 29). -/
def Memory.unlisted (a : Nat) : Byte :=
  if Config.glyphBase ≤ a then Config.font.getD (a - Config.glyphBase) 0 else 0

/-- The byte at an address, without the bounds check. -/
def Memory.read : Memory → Nat → Byte
  | [], a => Memory.unlisted a
  | (b, w) :: rest, a => if b = a then w else Memory.read rest a

/-- The memory with the pair of one address taken out. -/
def Memory.erase : Memory → Nat → Memory
  | [], _ => []
  | (b, w) :: rest, a => if b = a then Memory.erase rest a else (b, w) :: Memory.erase rest a

/-- The memory with a pair put before the first higher address. -/
def Memory.insert : Memory → Nat → Byte → Memory
  | [], a, v => [(a, v)]
  | (b, w) :: rest, a, v =>
    if a < b then (a, v) :: (b, w) :: rest else (b, w) :: Memory.insert rest a v

/-- The memory with one byte written, without the bounds check. Writing what an unlisted address reads as
takes the pair out, so the form stays canonical (log 29). -/
def Memory.write (m : Memory) (a : Nat) (v : Byte) : Memory :=
  if v = Memory.unlisted a then Memory.erase m a else Memory.insert (Memory.erase m a) a v

/-- The canonical form, of a memory whose addresses are at least `lo`. -/
def Memory.wfFrom : Nat → Memory → Bool
  | _, [] => true
  | lo, (a, v) :: rest =>
    decide (lo ≤ a) && decide (a < Config.memSize) && v != Memory.unlisted a && Memory.wfFrom (a + 1) rest

/-- The canonical form: addresses strictly rising and below MEM_SIZE, no pair equal to what an unlisted
address reads as (20_memory.md R70; log 29). -/
def Memory.wf (m : Memory) : Bool := Memory.wfFrom 0 m

/-- The memory whose bytes are the reset contents with the given cells written over them in order; a cell
outside the address space is passed over. Only `State.raise` uses it, for contents nothing constrains. -/
def Memory.ofCells (cells : List Host.Cell) : Memory :=
  cells.foldl (fun m c => if c.1 < Config.memSize then Memory.write m c.1 c.2 else m) []

/-- MemRead(a, 1): the bounds-checked read of a byte (20_memory.md R74). -/
def memRead (m : Memory) (a : Nat) : Except FatalError Byte :=
  if Config.memSize ≤ a then .error (.memoryOutOfBounds a) else .ok (Memory.read m a)

/-- MemWrite(a, 1, v): the bounds-checked write of a byte (20_memory.md R74). -/
def memWrite (m : Memory) (a : Nat) (v : Byte) : Except FatalError Memory :=
  if Config.memSize ≤ a then .error (.memoryOutOfBounds a) else .ok (Memory.write m a v)

/-- Bytes written at ascending addresses from `a`, one MemWrite each (43_index_memory.md R246, R247). -/
def storeBytes (m : Memory) (a : Nat) : List Byte → Except FatalError Memory
  | [] => .ok m
  | b :: bs =>
    match memWrite m a b with
    | .error e => .error e
    | .ok m' => storeBytes m' (a + 1) bs

/-- `count` bytes read at ascending addresses from `a`, one MemRead each (43_index_memory.md R246, R247). -/
def loadBytes (m : Memory) (a : Nat) : Nat → Except FatalError (List Byte)
  | 0 => .ok []
  | count + 1 =>
    match memRead m a with
    | .error e => .error e
    | .ok b =>
      match loadBytes m (a + 1) count with
      | .error e => .error e
      | .ok bs => .ok (b :: bs)

/-! ### Registers -/

/-- V[x] (00_scope.md R14). -/
def State.readV (s : State) (x : Nibble) : Byte := s.v[x.toNat]'x.isLt

/-- V[x] <- b (00_scope.md R14). -/
def State.writeV (s : State) (x : Nibble) (b : Byte) : State := { s with v := s.v.set x.toNat b x.isLt }

/-- V[x] <- r, then V[0xF] <- flag: the flag is written last (42_register_alu.md R190; log 12). -/
def State.writeVFlag (s : State) (x : Nibble) (r flag : Byte) : State := (s.writeV x r).writeV 0xF#4 flag

/-- V[x], V[x+1], ... <- the bytes, ascending; a byte past VF has no register and is not written. -/
def State.writeVs (s : State) (x : Nat) : List Byte → State
  | [] => s
  | b :: bs => State.writeVs (if h : x < 16 then { s with v := s.v.set x b h } else s) (x + 1) bs

/-- I <- w (00_scope.md R14). -/
def State.setI (s : State) (w : Word) : State := { s with i := w }

/-- DT <- b (00_scope.md R14). -/
def State.setDt (s : State) (b : Byte) : State := { s with dt := b }

/-- ST <- b (00_scope.md R14). -/
def State.setSt (s : State) (b : Byte) : State := { s with st := b }

/-- The state with another memory. -/
def State.setMem (s : State) (m : Memory) : State := { s with mem := m }

/-- The state with another framebuffer. -/
def State.setFb (s : State) (f : Framebuffer) : State := { s with fb := f }

/-- The state with another generator state. -/
def State.setRng (s : State) (r : RngState) : State := { s with rng := r }

/-- pc <- target (00_scope.md R14). -/
def State.setPc (s : State) (target : Word) : State := { s with pc := target }

/-- pc <- pc + 2, the end of a sequential instruction (40_control_flow.md R140). -/
def State.advance (s : State) : State := s.setPc (s.pc + 2)

/-- The end of a skip: pc <- pc + 4 where the condition holds, else pc + 2 (41_skips.md R170). -/
def State.skipIf (s : State) (c : Bool) : State := s.setPc (if c then s.pc + 4 else s.pc + 2)

/-! ### The call stack -/

/-- CALL's use of the stack: StackOverflow(pc) at SP = 16, before any write; else stack[SP] <- pc + 2 and
SP <- SP + 1 (40_control_flow.md R144; log 10, 24). -/
def State.pushReturn (s : State) : Except FatalError State :=
  if h : s.sp.val < 16 then
    .ok { s with stack := s.stack.set s.sp.val (s.pc + 2) h, sp := ⟨s.sp.val + 1, by omega⟩ }
  else .error (.stackOverflow s.pc)

/-- RET's use of the stack: StackUnderflow(pc) at SP = 0, before any write; else SP <- SP - 1 and
pc <- stack[SP] (40_control_flow.md R141; log 10, 24). -/
def State.popReturn (s : State) : Except FatalError State :=
  if h : 0 < s.sp.val then
    .ok { s with sp := ⟨s.sp.val - 1, by omega⟩, pc := s.stack[s.sp.val - 1]'(by omega) }
  else .error (.stackUnderflow s.pc)

/-! ### The framebuffer -/

/-- The index of a framebuffer byte, row * (WIDTH/8) + column byte (10_state.md R46). -/
def fbIndex (row : Fin 32) (col : Fin 8) : Fin 256 := ⟨row.val * 8 + col.val, by omega⟩

/-- FB[b] (00_scope.md R14). -/
def fbRead (fb : Framebuffer) (b : Fin 256) : Byte := fb[b.val]'b.isLt

/-- The pixel accessor: bit 7 of a byte is its leftmost pixel (10_state.md R47, R48). -/
def pixel (fb : Framebuffer) (px : Fin 64) (py : Fin 32) : Bool :=
  (fbRead fb (fbIndex py ⟨px.val / 8, by omega⟩)).getLsbD (7 - px.val % 8)

/-- One framebuffer byte XORed with a contribution, and whether the content before met it
(44_display.md R272). -/
def xorInto (fb : Framebuffer) (b : Fin 256) (p : Byte) : Framebuffer × Bool :=
  (fb.set b.val (fbRead fb b ^^^ p) b.isLt, (fbRead fb b &&& p) != 0)

/-! ### Fatal errors -/

end Sys2Proof.Machine

/-- FREE VALUE: what a fatal error leaves in every component but status and phase, of the error and the
state before the failing step (60_exceptions.md R379, R247; 93_implementation_defined.md U1; log 8). -/
opaque Sys2Proof.Config.afterFatal : Sys2Proof.Machine.FatalError → Sys2Proof.Machine.State → Sys2Proof.Machine.Residue

namespace Sys2Proof.Machine

/-- Taking a fatal error: the frame is aborted with phase Idle, status becomes Faulted(e), the error is the
answer of the StepFrame, and every other component is unspecified (60_exceptions.md R379;
48_frame_stepper.md R332, R358). No register saves anything and no handler runs. -/
def State.raise (s : State) (e : FatalError) : State :=
  { mem := Memory.ofCells (Config.afterFatal e s).mem
    v := (Config.afterFatal e s).v
    i := (Config.afterFatal e s).i
    pc := (Config.afterFatal e s).pc
    stack := (Config.afterFatal e s).stack
    sp := (Config.afterFatal e s).sp
    dt := (Config.afterFatal e s).dt
    st := (Config.afterFatal e s).st
    keys := (Config.afterFatal e s).keys
    fb := (Config.afterFatal e s).fb
    tone := (Config.afterFatal e s).tone
    budget := (Config.afterFatal e s).budget
    rng := (Config.afterFatal e s).rng
    status := .faulted e
    phase := .idle
    params := s.params
    requests := s.requests
    reply := some (.failed e) }

/-- The end of an operation begun in `s`: its next state, or the fatal error it raised, taken. -/
def complete (s : State) (r : Except FatalError State) : Host.Outcome State Fault Refusal :=
  match r with
  | .ok t => .next t
  | .error e => .next (s.raise e)

end Sys2Proof.Machine
end

