-- ==== Sys2Proof/Machine/Operands.lean ====
section
/-! DEFINITION. The operand forms: immediates and addresses, the register lists of the block transfers, BCD
digits, glyph addresses, key numbers, draw coordinates. -/

namespace Sys2Proof.Machine

/-- zext_16(nnn) (30_encoding.md R105). -/
def zextAddr (nnn : Addr) : Word := nnn.setWidth 16

/-- zext_16 of a byte (30_encoding.md R105). -/
def zextByte (b : Byte) : Word := b.setWidth 16

/-- The effective address of the first byte of a transfer, I as an exact natural number; the k-th byte is at
`dataBase + k`, with no wrap (43_index_memory.md R246, 20_memory.md R74; log 11). -/
def State.dataBase (s : State) : Nat := s.i.toNat

/-- V0..Vx, the registers a block transfer stores (43_index_memory.md R244). -/
def State.firstVs (s : State) (x : Nibble) : List Byte := s.v.toList.take (x.toNat + 1)

/-- The three decimal digits of a byte, most significant first (43_index_memory.md R243). -/
def bcdDigits (b : Byte) : List Byte :=
  [BitVec.ofNat 8 (b.toNat / 100), BitVec.ofNat 8 (b.toNat / 10 % 10), BitVec.ofNat 8 (b.toNat % 10)]

/-- The digit Fx29 takes from Vx, by GLYPH_INDEX_MODE (43_index_memory.md R242; log 15). -/
def glyphDigit (mode : GlyphIndexMode) (b : Byte) : Nat :=
  match mode with
  | .mask4 => (b &&& 0x0F).toNat
  | .full => b.toNat

/-- The address of a digit's glyph, GLYPH_BASE + 5 * d (43_index_memory.md R242). -/
def glyphAddress (d : Nat) : Word := BitVec.ofNat 16 (Config.glyphBase + 5 * d)

/-- Bit k of the keypad mask: key k is pressed (10_state.md R45). -/
def keyBit (keys : Word) (k : Nat) : Bool := keys.getLsbD k

/-- KeyDown(v), by KEY_RANGE_POLICY for a v above 0xF (45_keys_timers.md R300; log 16). -/
def keyDown (policy : KeyRangePolicy) (keys : Word) (v : Byte) : Except FatalError Bool :=
  if v.toNat ≤ 0xF then .ok (keyBit keys v.toNat)
  else
    match policy with
    | .fatal => .error (.keyIndexOutOfRange v)
    | .mask4 => .ok (keyBit keys (v &&& 0xF).toNat)
    | .notPressed => .ok false

/-- The lowest key that is down, scanning 0 to 15 in ascending order (45_keys_timers.md R304). -/
def firstKeyDown (keys : Word) : Option Nat := (List.range 16).find? (keyBit keys)

/-- The start column of a sprite, V[x] mod WIDTH (44_display.md R271). -/
def drawColumn (b : Byte) : Fin 64 := ⟨b.toNat % 64, Nat.mod_lt _ (by decide)⟩

/-- The framebuffer row of a sprite's row r, (V[y] mod HEIGHT + r) mod HEIGHT (44_display.md R271; log 21). -/
def drawRow (b : Byte) (r : Nat) : Fin 32 := ⟨(b.toNat % 32 + r) % 32, Nat.mod_lt _ (by decide)⟩

end Sys2Proof.Machine
end

