-- ==== Sys2Proof/Machine/ControlFlow.lean ====
section
/-! DEFINITION. The control transfers RET, SYS, JP, CALL and JP V0 (40_control_flow.md). A target is not
checked where it is written, odd or past memory; the next fetch checks it (R146). -/

namespace Sys2Proof.Machine

/-- RET (40_control_flow.md R141). -/
def execRet (s : State) : Host.Outcome State Fault Refusal :=
  complete s s.popReturn

/-- SYS nnn, a no-op whose nnn is ignored (40_control_flow.md R142; log 26). -/
def execSys (_nnn : Addr) (s : State) : Host.Outcome State Fault Refusal :=
  .next s.advance

/-- JP nnn (40_control_flow.md R143). -/
def execJp (nnn : Addr) (s : State) : Host.Outcome State Fault Refusal :=
  .next (s.setPc (zextAddr nnn))

/-- CALL nnn (40_control_flow.md R144). -/
def execCall (nnn : Addr) (s : State) : Host.Outcome State Fault Refusal :=
  complete s (s.pushReturn.map fun t => t.setPc (zextAddr nnn))

/-- JP V0, nnn: the sum is exact, at most 0x10FE (40_control_flow.md R145; log 25). -/
def execJpV0 (nnn : Addr) (s : State) : Host.Outcome State Fault Refusal :=
  .next (s.setPc (zextAddr nnn + zextByte (s.readV 0#4)))

end Sys2Proof.Machine
end

