-- ==== Sys2Proof/Machine/Flags.lean ====
section
/-! DEFINITION. Every result with a flag: 8-bit unsigned arithmetic, computed exactly and then reduced mod
256, with the value VF takes (42_register_alu.md R190, R203). -/

namespace Sys2Proof.Machine

/-- The value of VF for a condition: 1 or 0 (10_state.md R32). -/
def flagByte (c : Bool) : Byte := if c then 1 else 0

/-- (a + b) mod 256 (42_register_alu.md R203). -/
def addResult (a b : Byte) : Byte := BitVec.ofNat 8 (a.toNat + b.toNat)

/-- The carry: 1 iff the unsigned sum exceeds 255 (42_register_alu.md R197, R203). -/
def addCarry (a b : Byte) : Byte := flagByte (decide (255 < a.toNat + b.toNat))

/-- (a - b) mod 256 (42_register_alu.md R203). -/
def subResult (a b : Byte) : Byte := BitVec.ofInt 8 ((a.toNat : Int) - (b.toNat : Int))

/-- NOT borrow: 1 iff a >= b (42_register_alu.md R198, R203). -/
def subNotBorrow (a b : Byte) : Byte := flagByte (decide (b.toNat ≤ a.toNat))

/-- a >> 1, logical (42_register_alu.md R199). -/
def shrResult (a : Byte) : Byte := a >>> 1

/-- The bit a right shift moves out, bit 0 of a before the shift (42_register_alu.md R199). -/
def shrBitOut (a : Byte) : Byte := a &&& 1

/-- (a << 1) mod 256 (42_register_alu.md R201). -/
def shlResult (a : Byte) : Byte := a <<< 1

/-- The bit a left shift moves out, bit 7 of a before the shift (42_register_alu.md R201). -/
def shlBitOut (a : Byte) : Byte := (a >>> 7) &&& 1

end Sys2Proof.Machine
end

