-- ==== Sys2Proof/Machine/Display.lean ====
section
/-! DEFINITION. The display instructions CLS and DRW (44_display.md). -/

namespace Sys2Proof.Machine

/-- BlitRow(b, px, row): one sprite byte XORed into one or two byte columns of a row, and whether a lit pixel
was met; the next column wraps to 0 past the last (44_display.md R272). -/
def blitRow (fb : Framebuffer) (b : Byte) (px : Fin 64) (row : Fin 32) : Framebuffer × Bool :=
  let c0 : Fin 8 := ⟨px.val / 8, by omega⟩
  let c1 : Fin 8 := ⟨(px.val / 8 + 1) % 8, Nat.mod_lt _ (by decide)⟩
  let sh := px.val % 8
  let q0 := xorInto fb (fbIndex row c0) (b >>> sh)
  if sh = 0 then q0
  else
    let q1 := xorInto q0.1 (fbIndex row c1) (b <<< (8 - sh))
    (q1.1, q0.2 || q1.2)

/-- The rows `rs` of a sprite, in their order: MemRead(I + r, 1), BlitRow, and the collisions gathered
(44_display.md R271). -/
def drawRows (m : Memory) (base : Nat) (vx vy : Byte) : List Nat → Framebuffer → Bool → Except FatalError (Framebuffer × Bool)
  | [], fb, hit => .ok (fb, hit)
  | r :: rs, fb, hit =>
    match memRead m (base + r) with
    | .error e => .error e
    | .ok b =>
      let q := blitRow fb b (drawColumn vx) (drawRow vy r)
      drawRows m base vx vy rs q.1 (q.2 || hit)

/-- CLS: all 256 bytes of FB are cleared (44_display.md R270). -/
def execCls (s : State) : Host.Outcome State Fault Refusal :=
  .next (s.setFb (Vector.replicate 256 0)).advance

/-- DRW Vx, Vy, nibble: rows 0 to n-1, then VF <- collision; n = 0 draws nothing and clears VF
(44_display.md R271; log 19). -/
def execDrw (x y n : Nibble) (s : State) : Host.Outcome State Fault Refusal :=
  complete s ((drawRows s.mem s.dataBase (s.readV x) (s.readV y) (List.range n.toNat) s.fb false).map fun q =>
    ((s.setFb q.1).writeV 0xF#4 (flagByte q.2)).advance)

end Sys2Proof.Machine
end

