-- ==== Sys2Proof/Machine/IndexMemory.lean ====
section
/-! DEFINITION. The index register and the memory transfers (43_index_memory.md). Transfers run at ascending
addresses I + k, I itself is unchanged (R246; log 13), and the first failing address is reported (R247). -/

namespace Sys2Proof.Machine

/-- LD I, addr (43_index_memory.md R240). -/
def execLdI (nnn : Addr) (s : State) : Host.Outcome State Fault Refusal :=
  .next (s.setI (zextAddr nnn)).advance

/-- ADD I, Vx: mod 2^16, VF is not written (43_index_memory.md R241; log 14). -/
def execAddI (x : Nibble) (s : State) : Host.Outcome State Fault Refusal :=
  .next (s.setI (s.i + zextByte (s.readV x))).advance

/-- LD F, Vx (43_index_memory.md R242). -/
def execLdF (x : Nibble) (s : State) : Host.Outcome State Fault Refusal :=
  .next (s.setI (glyphAddress (glyphDigit s.params.glyphIndexMode (s.readV x)))).advance

/-- LD B, Vx (43_index_memory.md R243). -/
def execLdB (x : Nibble) (s : State) : Host.Outcome State Fault Refusal :=
  complete s ((storeBytes s.mem s.dataBase (bcdDigits (s.readV x))).map fun m => (s.setMem m).advance)

/-- LD [I], Vx (43_index_memory.md R244). -/
def execLdMemVx (x : Nibble) (s : State) : Host.Outcome State Fault Refusal :=
  complete s ((storeBytes s.mem s.dataBase (s.firstVs x)).map fun m => (s.setMem m).advance)

/-- LD Vx, [I] (43_index_memory.md R245). -/
def execLdVxMem (x : Nibble) (s : State) : Host.Outcome State Fault Refusal :=
  complete s ((loadBytes s.mem s.dataBase (x.toNat + 1)).map fun bs => (s.writeVs 0 bs).advance)

end Sys2Proof.Machine
end

