-- ==== Sys2Proof/Machine/KeysTimers.lean ====
section
/-! DEFINITION. The keypad and timer instructions (45_keys_timers.md). KEYS is the mask latched at the start of
the frame; no instruction decrements a timer (R307). -/

namespace Sys2Proof.Machine

/-- SKP Vx (45_keys_timers.md R301). -/
def execSkp (x : Nibble) (s : State) : Host.Outcome State Fault Refusal :=
  complete s ((keyDown s.params.keyRangePolicy s.keys (s.readV x)).map fun down => s.skipIf down)

/-- SKNP Vx (45_keys_timers.md R302). -/
def execSknp (x : Nibble) (s : State) : Host.Outcome State Fault Refusal :=
  complete s ((keyDown s.params.keyRangePolicy s.keys (s.readV x)).map fun down => s.skipIf (!down))

/-- LD Vx, DT (45_keys_timers.md R303). -/
def execLdVxDt (x : Nibble) (s : State) : Host.Outcome State Fault Refusal :=
  .next (s.writeV x s.dt).advance

/-- LD Vx, K: the lowest key down, or, with no key down, nothing written and pc unchanged, so that the same
instruction executes again at the next step (45_keys_timers.md R304). -/
def execLdVxK (x : Nibble) (s : State) : Host.Outcome State Fault Refusal :=
  match firstKeyDown s.keys with
  | some k => .next (s.writeV x (BitVec.ofNat 8 k)).advance
  | none => .next s

/-- LD DT, Vx (45_keys_timers.md R305). -/
def execLdDtVx (x : Nibble) (s : State) : Host.Outcome State Fault Refusal :=
  .next (s.setDt (s.readV x)).advance

/-- LD ST, Vx (45_keys_timers.md R306). -/
def execLdStVx (x : Nibble) (s : State) : Host.Outcome State Fault Refusal :=
  .next (s.setSt (s.readV x)).advance

end Sys2Proof.Machine
end

