-- ==== Sys2Proof/Machine/RegisterAlu.lean ====
section
/-! DEFINITION. Register loads, arithmetic, logic, shifts and RND (42_register_alu.md). Operands are read
before any register is written; V[x] is written first and VF last (R190; log 12). -/

namespace Sys2Proof.Machine

/-- LD Vx, byte (42_register_alu.md R191). -/
def execLdImm (x : Nibble) (kk : Byte) (s : State) : Host.Outcome State Fault Refusal :=
  .next (s.writeV x kk).advance

/-- ADD Vx, byte: no flag (42_register_alu.md R192). -/
def execAddImm (x : Nibble) (kk : Byte) (s : State) : Host.Outcome State Fault Refusal :=
  .next (s.writeV x (addResult (s.readV x) kk)).advance

/-- LD Vx, Vy (42_register_alu.md R193). -/
def execLdReg (x y : Nibble) (s : State) : Host.Outcome State Fault Refusal :=
  .next (s.writeV x (s.readV y)).advance

/-- OR Vx, Vy (42_register_alu.md R194). -/
def execOrReg (x y : Nibble) (s : State) : Host.Outcome State Fault Refusal :=
  .next (s.writeV x (s.readV x ||| s.readV y)).advance

/-- AND Vx, Vy (42_register_alu.md R195). -/
def execAndReg (x y : Nibble) (s : State) : Host.Outcome State Fault Refusal :=
  .next (s.writeV x (s.readV x &&& s.readV y)).advance

/-- XOR Vx, Vy (42_register_alu.md R196). -/
def execXorReg (x y : Nibble) (s : State) : Host.Outcome State Fault Refusal :=
  .next (s.writeV x (s.readV x ^^^ s.readV y)).advance

/-- ADD Vx, Vy, carry into VF (42_register_alu.md R197). -/
def execAddReg (x y : Nibble) (s : State) : Host.Outcome State Fault Refusal :=
  .next (s.writeVFlag x (addResult (s.readV x) (s.readV y)) (addCarry (s.readV x) (s.readV y))).advance

/-- SUB Vx, Vy, NOT borrow into VF (42_register_alu.md R198). -/
def execSubReg (x y : Nibble) (s : State) : Host.Outcome State Fault Refusal :=
  .next (s.writeVFlag x (subResult (s.readV x) (s.readV y)) (subNotBorrow (s.readV x) (s.readV y))).advance

/-- SHR Vx: the source is Vx, field y is not read (42_register_alu.md R199). -/
def execShr (x _y : Nibble) (s : State) : Host.Outcome State Fault Refusal :=
  .next (s.writeVFlag x (shrResult (s.readV x)) (shrBitOut (s.readV x))).advance

/-- SUBN Vx, Vy: Vy - Vx, NOT borrow into VF (42_register_alu.md R200). -/
def execSubn (x y : Nibble) (s : State) : Host.Outcome State Fault Refusal :=
  .next (s.writeVFlag x (subResult (s.readV y) (s.readV x)) (subNotBorrow (s.readV y) (s.readV x))).advance

/-- SHL Vx: the source is Vx, field y is not read (42_register_alu.md R201; log 25). -/
def execShl (x _y : Nibble) (s : State) : Host.Outcome State Fault Refusal :=
  .next (s.writeVFlag x (shlResult (s.readV x)) (shlBitOut (s.readV x))).advance

/-- RND Vx, byte: one rngNext, whatever kk is (42_register_alu.md R202; log 7). -/
def execRnd (x : Nibble) (kk : Byte) (s : State) : Host.Outcome State Fault Refusal :=
  .next ((s.setRng (Config.rngNext s.rng).2).writeV x ((Config.rngNext s.rng).1 &&& kk)).advance

end Sys2Proof.Machine
end

