-- ==== Sys2Proof/Machine/FrameStepper.lean ====
section
/-! DEFINITION. The frame stepper: the start of a frame, one instruction step, the loop, the end of a frame
(48_frame_stepper.md R340 to R349). -/

namespace Sys2Proof.Machine

/-- A timer's countdown: one less, clamped at 0 (48_frame_stepper.md R341). -/
def countDown (b : Byte) : Byte := if 0 < b then b - 1 else 0

/-- The phase the loop condition gives: an instruction step starts only while budget > 0
(48_frame_stepper.md R332, R344). -/
def loopPhase (budget : Int) : Phase := if 0 < budget then .fetching else .frameComplete

/-- The start of StepFrame(keys): KEYS is latched, the timers count down, tone takes ST as it was before,
the budget grows by FRAME_PERIOD, and the loop condition is checked (48_frame_stepper.md R340 to R343, R352). -/
def State.beginFrame (s : State) (keys : Word) : State :=
  { s with
    keys := keys
    dt := countDown s.dt
    tone := s.st != 0
    st := countDown s.st
    budget := s.budget + Config.framePeriod
    phase := loopPhase (s.budget + Config.framePeriod)
    reply := none }

/-- The return of StepFrame: FrameComplete goes to Idle with (FB, tone) (48_frame_stepper.md R332, R348). -/
def State.endFrame (s : State) : State :=
  { s with phase := .idle, reply := some (.frame s.fb s.tone) }

/-- The fetch at pc: ProgramCounterOutOfBounds(pc) when pc + 1 >= MEM_SIZE, before either byte is read, else
the big-endian word (48_frame_stepper.md R345, 20_memory.md R75, R76). -/
def State.fetch (s : State) : Except FatalError Word :=
  if Config.memSize ≤ s.pc.toNat + 1 then .error (.programCounterOutOfBounds s.pc)
  else .ok (wordOfBytes (Memory.read s.mem s.pc.toNat) (Memory.read s.mem (s.pc.toNat + 1)))

/-- The end of an instruction step: COST(op) is charged and the loop condition checked; an operation that
raised a fatal error charges nothing and has ended the frame (48_frame_stepper.md R345, R332, R358). -/
def State.charge (op : Operation) (t : State) : State :=
  match t.status with
  | .running =>
    { t with
      budget := t.budget - (t.params.cost op : Int)
      phase := loopPhase (t.budget - (t.params.cost op : Int)) }
  | .faulted _ => t

/-- InstructionStep(): fetch, decode, execute, charge (48_frame_stepper.md R345). The checks come in the order of
60_exceptions.md R378. -/
def instructionStep (s : State) : Host.Outcome State Fault Refusal :=
  match s.fetch with
  | .error e => .next (s.raise e)
  | .ok w =>
    match decode w with
    | .invalidOpcode w => .next (s.raise (.invalidOpcode w))
    | .instr i =>
      match exec i { s with phase := .executing } with
      | .next t => .next (t.charge i.operation)
      | .fault f => .fault f
      | .refused r => .refused r

/-- The loop of StepFrame, at its check: an instruction step while budget > 0, else the frame is complete
(48_frame_stepper.md R340, R344). -/
def frameLoop (s : State) : Host.Outcome State Fault Refusal :=
  if 0 < s.budget then instructionStep s else .next { s with phase := .frameComplete }

end Sys2Proof.Machine
end

