-- ==== Sys2Proof/Machine/HostPort.lean ====
section
/-! DEFINITION. The host interface: what the core does in phase Idle with the host's next transaction
(48_frame_stepper.md R330, R331). -/

namespace Sys2Proof.Machine

/-- LoadProgram(bytes): ProgramTooLarge(L) and nothing changed when L > MEM_SIZE - LOAD_ADDR, else the bytes
from LOAD_ADDR and nothing else (70_reset_and_hazards.md R405, R406; log 23). A sequence within the limit fits, so
the last arm is never taken. -/
def State.loadProgram (s : State) (bytes : List Byte) : State :=
  if Config.memSize - Config.loadAddr < bytes.length then
    { s with reply := some (.programTooLarge bytes.length) }
  else
    match storeBytes s.mem Config.loadAddr bytes with
    | .ok m => { s with mem := m, reply := some .loaded }
    | .error _ => { s with reply := some (.programTooLarge bytes.length) }

/-- ReadFramebuffer(): the 256 bytes of FB; no state changes (48_frame_stepper.md R354). -/
def State.readFramebuffer (s : State) : State := { s with reply := some (.framebuffer s.fb) }

/-- The core in phase Idle. With no transaction pending it holds its state (60_exceptions.md R389). A Faulted core
answers only Construct and ReadFramebuffer; StepFrame and LoadProgram have no transition
(48_frame_stepper.md R355, R354; 70_reset_and_hazards.md R407; log 2, 9). -/
def hostTurn (s : State) : Host.Outcome State Fault Refusal :=
  match s.requests with
  | [] => .next s
  | request :: later =>
    let t := { s with requests := later }
    match request, s.status with
    | .construct seed, _ => .next (State.construct s.params seed later)
    | .readFramebuffer, _ => .next t.readFramebuffer
    | .loadProgram bytes, .running => .next (t.loadProgram bytes)
    | .stepFrame keys, .running => .next (t.beginFrame keys)
    | .loadProgram _, .faulted e => .fault (.coreFaulted e)
    | .stepFrame _, .faulted e => .fault (.coreFaulted e)

end Sys2Proof.Machine
end

