-- ==== Sys2Proof/Machine/Step.lean ====
section
/-! DEFINITION. One step of the core: a host transaction in Idle, one InstructionStep in a frame, or the return
of the frame (48_frame_stepper.md R332; log 1). -/

namespace Sys2Proof.Machine

/-- One step. A step in Fetching goes through Executing to the phase the loop condition gives, so a state
between steps is never in Executing; there, and in a Faulted core outside Idle, the step does what log 30 says. -/
def step (s : State) : Host.Outcome State Fault Refusal :=
  match s.phase, s.status with
  | .idle, _ => hostTurn s
  | .fetching, .running => frameLoop s
  | .executing, .running => instructionStep s
  | .frameComplete, .running => .next s.endFrame
  | .fetching, .faulted e => .fault (.coreFaulted e)
  | .executing, .faulted e => .fault (.coreFaulted e)
  | .frameComplete, .faulted e => .fault (.coreFaulted e)

/-- The address of the two bytes `withFetchWord` writes: pc where a fetch there is in bounds, else LOAD_ADDR. -/
def State.fetchAddress (s : State) : Nat :=
  if s.pc.toNat + 1 < Config.memSize then s.pc.toNat else Config.loadAddr

/-- The state inside a frame with the instruction of bits `w` where the next step fetches: the word at pc, status
Running, phase Fetching, and a budget above 0, one FRAME_PERIOD where there was none (log 2). -/
def State.withFetchWord (s : State) (nbits w : Nat) : State :=
  let word : Word := BitVec.ofNat 16 (w % 2 ^ nbits)
  let a := s.fetchAddress
  { s with
    mem := Memory.write (Memory.write s.mem a (firstByte word)) (a + 1) (secondByte word)
    pc := BitVec.ofNat 16 a
    status := .running
    phase := .fetching
    budget := if 0 < s.budget then s.budget else Config.framePeriod }

end Sys2Proof.Machine
end

