-- ==== Sys2Proof/Safety.lean ====
section
/-! DEFINITION. What statements are said in: the parts of the state and what a frame is, the conditions under
which an operation raises a fatal error, the registers it writes, the pixels a sprite covers, the state after
Construct, and the invariant of the machine. -/

namespace Sys2Proof.Machine

/-- The parts of the state (10_state.md R30, and the model's own params, requests and reply). SP stands with the
stack. -/
inductive Part where
  | mem | v | i | pc | stack | dt | st | keys | fb | tone | budget | rng | status | phase
  | params | requests | reply
  deriving DecidableEq, Repr

/-- A part reads the same in two states: for memory every byte, for the register file every register. -/
def Part.Same (s t : State) : Part → Prop
  | .mem => ∀ a, Memory.read t.mem a = Memory.read s.mem a
  | .v => ∀ x, t.readV x = s.readV x
  | .i => t.i = s.i
  | .pc => t.pc = s.pc
  | .stack => t.stack = s.stack ∧ t.sp = s.sp
  | .dt => t.dt = s.dt
  | .st => t.st = s.st
  | .keys => t.keys = s.keys
  | .fb => ∀ b, fbRead t.fb b = fbRead s.fb b
  | .tone => t.tone = s.tone
  | .budget => t.budget = s.budget
  | .rng => t.rng = s.rng
  | .status => t.status = s.status
  | .phase => t.phase = s.phase
  | .params => t.params = s.params
  | .requests => t.requests = s.requests
  | .reply => t.reply = s.reply

/-- The frame: every part of the state but the named ones is unchanged from `s` to `t`. -/
def Frame (written : List Part) (s t : State) : Prop := ∀ p, p ∉ written → Part.Same s t p

/-- The core raised the fatal error `e`: status is Faulted(e), phase is Idle, the host gets the error
(60_exceptions.md R379; 48_frame_stepper.md R332). -/
def Raised (t : State) (e : FatalError) : Prop :=
  t.status = .faulted e ∧ t.phase = .idle ∧ t.reply = some (.failed e)

/-- The address MemoryOutOfBounds carries for a transfer from `base` that leaves memory: the first failing one
(60_exceptions.md R376, R378). -/
def firstBadAddress (base : Nat) : Nat := max base Config.memSize

/-- A transfer of `n` bytes from `base` leaves memory (20_memory.md R74). -/
def LeavesMemory (base n : Nat) : Prop := 0 < n ∧ Config.memSize < base + n

/-- The execute-time errors: which operation raises which error in which state (60_exceptions.md R370). -/
def Raises (i : Instr) (s : State) (e : FatalError) : Prop :=
  match i with
  | .call _ => s.sp.val = 16 ∧ e = .stackOverflow s.pc
  | .ret => s.sp.val = 0 ∧ e = .stackUnderflow s.pc
  | .drw _ _ n => LeavesMemory s.i.toNat n.toNat ∧ e = .memoryOutOfBounds (firstBadAddress s.i.toNat)
  | .ldB _ => LeavesMemory s.i.toNat 3 ∧ e = .memoryOutOfBounds (firstBadAddress s.i.toNat)
  | .ldMemVx x | .ldVxMem x =>
    LeavesMemory s.i.toNat (x.toNat + 1) ∧ e = .memoryOutOfBounds (firstBadAddress s.i.toNat)
  | .skp x | .sknp x =>
    0xF < (s.readV x).toNat ∧ s.params.keyRangePolicy = .fatal ∧ e = .keyIndexOutOfRange (s.readV x)
  | .cls | .sys _ | .jp _ | .seImm _ _ | .sneImm _ _ | .seReg _ _ | .ldImm _ _ | .addImm _ _
  | .ldReg _ _ | .orReg _ _ | .andReg _ _ | .xorReg _ _ | .addReg _ _ | .subReg _ _ | .shr _ _
  | .subn _ _ | .shl _ _ | .sneReg _ _ | .ldI _ | .jpV0 _ | .rnd _ _ | .ldVxDt _ | .ldVxK _
  | .ldDtVx _ | .ldStVx _ | .addI _ | .ldF _ => False

/-- The column "writes" of the table of 10_state.md R34: whether the table names the register `r` among those the
instruction writes. The flag instructions and DRW name VF, which is `r = 0xF` (R32). -/
def writesV (i : Instr) (r : Nibble) : Bool :=
  match i with
  | .ldImm x _ | .addImm x _ | .ldReg x _ | .orReg x _ | .andReg x _ | .xorReg x _ | .rnd x _
  | .ldVxDt x | .ldVxK x => r == x
  | .addReg x _ | .subReg x _ | .shr x _ | .subn x _ | .shl x _ => r == x || r == 0xF#4
  | .drw _ _ _ => r == 0xF#4
  | .ldVxMem x => decide (r.toNat ≤ x.toNat)
  | .cls | .ret | .sys _ | .jp _ | .call _ | .seImm _ _ | .sneImm _ _ | .seReg _ _ | .sneReg _ _
  | .ldI _ | .jpV0 _ | .skp _ | .sknp _ | .ldDtVx _ | .ldStVx _ | .addI _ | .ldF _ | .ldB _
  | .ldMemVx _ => false

/-- The sprite drawn from (vx, vy) with `n` rows at `base` has a set bit on the pixel (px, py): the pixel is
((vx + j) mod 64, (vy + r) mod 32) for a bit j of 0..7, from the left, of a row r < n (44_display.md R273). -/
def spriteCovers (m : Memory) (base : Nat) (vx vy : Byte) (n : Nat) (px : Fin 64) (py : Fin 32) : Bool :=
  let j := (px.val + 64 - vx.toNat % 64) % 64
  let r := (py.val + 32 - vy.toNat % 32) % 32
  decide (j < 8) && decide (r < n) && (Memory.read m (base + r)).getLsbD (7 - j)

/-- Every component at its value after Construct(seed) (10_state.md R61, 70_reset_and_hazards.md R400). -/
def AfterConstruct (seed : Seed) (s : State) : Prop :=
  (∀ k, k < 80 → Memory.read s.mem k = Config.font.getD k 0) ∧
  (∀ a, 80 ≤ a → Memory.read s.mem a = 0) ∧
  (∀ x, s.readV x = 0) ∧ s.i = 0 ∧ s.pc = 0x200 ∧ (∀ j : Fin 16, s.stack[j] = 0) ∧ s.sp = 0 ∧
  s.dt = 0 ∧ s.st = 0 ∧ s.keys = 0 ∧ (∀ b, fbRead s.fb b = 0) ∧ s.tone = false ∧ s.budget = 0 ∧
  s.rng = Config.rngInit seed ∧ s.status = .running ∧ s.phase = .idle

/-- The range of budget in each phase between steps: above 0 and at most one FRAME_PERIOD where an instruction
is to be fetched, else at most 0 and above -max COST (10_state.md R60; 48_frame_stepper.md R344, R350). -/
def BudgetInRange (s : State) : Prop :=
  match s.phase with
  | .fetching => 0 < s.budget ∧ s.budget ≤ 16666
  | .executing => False
  | .idle | .frameComplete => -22734 < s.budget ∧ s.budget ≤ 0

/-- The invariant of the machine between steps: memory has its canonical form; a Faulted core is in Idle; in a
Running core pc is at most 0x10FE, every return address in use is at most 0x1000 (10_state.md R38), and budget is
in the range of its phase (R60). -/
def Inv (s : State) : Prop :=
  Memory.wf s.mem = true ∧
  (∀ e, s.status = .faulted e → s.phase = .idle) ∧
  (s.status = .running →
    s.pc.toNat ≤ 0x10FE ∧ (∀ j : Fin 16, j.val < s.sp.val → s.stack[j].toNat ≤ 0x1000) ∧ BudgetInRange s)

end Sys2Proof.Machine
end

