-- ==== Sys2Proof/Certificates/Slice0/Obligations.lean ====
section
/-! DEFINITION. The statements for the provers, each formalising rules of spec/ or resting on the sections its
docstring names. A statement that rests on one of the spec's own decisions, or on a choice of the model, says so. -/

open Sys2Proof Sys2Proof.Machine

/-! ### Encoding -/

/-- Decoding the word of a well-formed instruction gives the instruction back, with every operand
(30_encoding.md, sections 1 to 3). -/
def Obligations.DecodeOfEncode : Prop :=
  ∀ i : Instr, WellFormed i = true → decode (encode i) = .instr i

/-- Every word that decodes is the word of the instruction it decodes to, which is well-formed, and of no other
well-formed instruction (30_encoding.md R106, R119, which the spec derives). That a word 5xyN or 9xyN with N not 0 is no
SE or SNE is the spec's decision D14 (log 17). -/
def Obligations.EncodeOfDecode : Prop :=
  ∀ (w : Word) (i : Instr), decode w = .instr i →
    encode i = w ∧ WellFormed i = true ∧ ∀ j : Instr, WellFormed j = true → encode j = w → j = i

/-- In class E the function code 9E is SKP, A1 is SKNP, and no other is valid; in class F exactly nine are valid; any
other word of the two classes is InvalidOpcode, carrying the word (30_encoding.md R110, R111). -/
def Obligations.ClassesEAndFInvalidWords : Prop :=
  (∀ w : Word, fieldOp w = 0xE → fieldKk w = 0x9E → decode w = .instr (.skp (fieldX w))) ∧
  (∀ w : Word, fieldOp w = 0xE → fieldKk w = 0xA1 → decode w = .instr (.sknp (fieldX w))) ∧
  (∀ w : Word, fieldOp w = 0xE →
    (decode w = .invalidOpcode w ↔ fieldKk w ≠ 0x9E ∧ fieldKk w ≠ 0xA1)) ∧
  (∀ w : Word, fieldOp w = 0xF →
    (decode w = .invalidOpcode w ↔
      fieldKk w ∉ ([0x07, 0x0A, 0x15, 0x18, 0x1E, 0x29, 0x33, 0x55, 0x65] : List Byte)))

/-- A word is InvalidOpcode, always carrying itself, exactly in the rows of the table of 30_encoding.md R112. For
classes 5 and 9 this is the spec's decision D14 (log 17). -/
def Obligations.InvalidWords : Prop :=
  ∀ w w' : Word, decode w = .invalidOpcode w' ↔ w' = w ∧
    ((fieldOp w = 0x5 ∧ fieldN w ≠ 0) ∨
     (fieldOp w = 0x8 ∧ fieldN w ∈ ([0x8, 0x9, 0xA, 0xB, 0xC, 0xD, 0xF] : List Nibble)) ∨
     (fieldOp w = 0x9 ∧ fieldN w ≠ 0) ∨
     (fieldOp w = 0xE ∧ fieldKk w ∉ ([0x9E, 0xA1] : List Byte)) ∨
     (fieldOp w = 0xF ∧
       fieldKk w ∉ ([0x07, 0x0A, 0x15, 0x18, 0x1E, 0x29, 0x33, 0x55, 0x65] : List Byte)))

/-- Words of every family, written out from the patterns of 30_encoding.md R117, decode to their instructions, and the
word 5121 is InvalidOpcode, the spec's decision D14 (log 17; 95_test_vectors.md 2.1 has most of them). -/
def Obligations.SampleWordsDecode : Prop :=
  decode 0x0EE0 = .instr (.sys 0xEE0) ∧ decode 0x00EE = .instr .ret ∧ decode 0xB123 = .instr (.jpV0 0x123) ∧
  decode 0x9AB0 = .instr (.sneReg 0xA 0xB) ∧ decode 0x8AB7 = .instr (.subn 0xA 0xB) ∧
  decode 0xFF65 = .instr (.ldVxMem 0xF) ∧ decode 0xD12F = .instr (.drw 0x1 0x2 0xF) ∧
  decode 0xE4A1 = .instr (.sknp 0x4) ∧ decode 0x5121 = .invalidOpcode 0x5121

/-! ### Control transfer -/

/-- The word 0nnn, but for 00E0 and 00EE, is SYS nnn, which only advances pc by 2; the word 1nnn is JP nnn, which sets
pc to nnn, and at the target FFF the next fetch fails. Nothing else changes (40_control_flow.md R142, R143). -/
def Obligations.SysAndJump : Prop :=
  ∀ (nnn : Addr) (s : State),
    (nnn ≠ 0x0E0 → nnn ≠ 0x0EE → decode (encNNN 0x0 nnn) = .instr (.sys nnn)) ∧
    decode (encNNN 0x1 nnn) = .instr (.jp nnn) ∧
    (∃ t, exec (.sys nnn) s = .next t ∧ t.pc = s.pc + 2 ∧ Frame [.pc] s t) ∧
    (∃ t, exec (.jp nnn) s = .next t ∧ t.pc.toNat = nnn.toNat ∧ Frame [.pc] s t ∧
      (nnn = 0xFFF → ∃ e, t.fetch = .error e))

/-- JP V0 sets pc to nnn + V0, exactly, with no wrap at 12 bits: the spec's decision D31 (log 25;
40_control_flow.md, section 2). -/
def Obligations.JumpV0Exact : Prop :=
  ∀ (nnn : Addr) (s : State),
    ∃ t, exec (.jpV0 nnn) s = .next t ∧ t.pc.toNat = nnn.toNat + (s.readV 0#4).toNat ∧ Frame [.pc] s t

/-- CALL with fewer than 16 entries in use stores pc + 2 at stack[SP] and nothing else on the stack, increments SP
and jumps. That the pushed value is pc + 2 is the spec's decision D6 (log 24; 40_control_flow.md, section 2). -/
def Obligations.CallPushesReturnAddress : Prop :=
  ∀ (nnn : Addr) (s : State), s.sp.val < 16 →
    ∃ t, exec (.call nnn) s = .next t ∧ t.pc.toNat = nnn.toNat ∧ t.sp.val = s.sp.val + 1 ∧
      (∀ j : Fin 16, t.stack[j] = if j.val = s.sp.val then s.pc + 2 else s.stack[j]) ∧ Frame [.pc, .stack] s t

/-- RET with an entry in use decrements SP and sets pc to the popped entry; the stack keeps every entry
(40_control_flow.md, section 2; 10_state.md R42; the pop without + 2 is the spec's decision D6, log 24). -/
def Obligations.ReturnPopsAddress : Prop :=
  ∀ (s : State) (j : Fin 16), s.sp.val = j.val + 1 →
    ∃ t, exec .ret s = .next t ∧ t.pc = s.stack[j] ∧ t.sp.val = j.val ∧ t.stack = s.stack ∧
      Frame [.pc, .stack] s t

/-- CALL at SP = 16 raises StackOverflow and RET at SP = 0 raises StackUnderflow, each carrying the instruction's
pc: the spec's decision D7 (log 10; 60_exceptions.md, section 1). -/
def Obligations.StackErrors : Prop :=
  (∀ (nnn : Addr) (s : State), s.sp.val = 16 →
    ∃ t, exec (.call nnn) s = .next t ∧ Raised t (.stackOverflow s.pc)) ∧
  (∀ s : State, s.sp.val = 0 → ∃ t, exec .ret s = .next t ∧ Raised t (.stackUnderflow s.pc))

/-- A CALL and then a RET from any state that has the stack the CALL left come back to pc + 2 with SP as before
the CALL (40_control_flow.md, section 2; D6, log 24). -/
def Obligations.CallThenReturn : Prop :=
  ∀ (nnn : Addr) (s : State), s.sp.val < 16 →
    ∃ t, exec (.call nnn) s = .next t ∧
      ∀ u : State, u.stack = t.stack → u.sp = t.sp →
        ∃ r, exec .ret u = .next r ∧ r.pc = s.pc + 2 ∧ r.sp = s.sp

/-! ### Skips -/

/-- The skips with an immediate, words 3xkk and 4xkk: pc + 4 when the condition holds, pc + 2 when it does not, and
nothing else changes (41_skips.md R171, R172). -/
def Obligations.SkipsOnImmediate : Prop :=
  ∀ (x : Nibble) (kk : Byte) (s : State),
    decode (encXKK 0x3 x kk) = .instr (.seImm x kk) ∧
    (∃ t, exec (.seImm x kk) s = .next t ∧
      t.pc = (if s.readV x = kk then s.pc + 4 else s.pc + 2) ∧ Frame [.pc] s t) ∧
    decode (encXKK 0x4 x kk) = .instr (.sneImm x kk) ∧
    (∃ t, exec (.sneImm x kk) s = .next t ∧
      t.pc = (if s.readV x ≠ kk then s.pc + 4 else s.pc + 2) ∧ Frame [.pc] s t)

/-- The skips on two registers, words 5xy0 and 9xy0: pc + 4 when the condition holds, pc + 2 when it does not, and
nothing else changes (41_skips.md, section 2). -/
def Obligations.SkipsOnRegisters : Prop :=
  ∀ (x y : Nibble) (s : State),
    (∃ t, exec (.seReg x y) s = .next t ∧
      t.pc = (if s.readV x = s.readV y then s.pc + 4 else s.pc + 2) ∧ Frame [.pc] s t) ∧
    (∃ t, exec (.sneReg x y) s = .next t ∧
      t.pc = (if s.readV x ≠ s.readV y then s.pc + 4 else s.pc + 2) ∧ Frame [.pc] s t)

/-! ### Register loads, logic, arithmetic -/

/-- The words 6xkk LD Vx, byte; 8xy0 LD Vx, Vy; 8xy1 OR; 8xy2 AND; 8xy3 XOR: Vx gets the value, every other register
(VF too, unless x = F) and every other part of the state is unchanged, pc advances by 2 (42_register_alu.md R191, R193
to R196). -/
def Obligations.LoadsAndLogic : Prop :=
  ∀ (x y : Nibble) (kk : Byte) (s : State),
    decode (encXKK 0x6 x kk) = .instr (.ldImm x kk) ∧
    (∃ t, exec (.ldImm x kk) s = .next t ∧ t.pc = s.pc + 2 ∧
      (∀ r, t.readV r = if r = x then kk else s.readV r) ∧ Frame [.v, .pc] s t) ∧
    decode (encXYN 0x8 x y 0x0) = .instr (.ldReg x y) ∧
    (∃ t, exec (.ldReg x y) s = .next t ∧ t.pc = s.pc + 2 ∧
      (∀ r, t.readV r = if r = x then s.readV y else s.readV r) ∧ Frame [.v, .pc] s t) ∧
    decode (encXYN 0x8 x y 0x1) = .instr (.orReg x y) ∧
    (∃ t, exec (.orReg x y) s = .next t ∧ t.pc = s.pc + 2 ∧
      (∀ r, t.readV r = if r = x then s.readV x ||| s.readV y else s.readV r) ∧ Frame [.v, .pc] s t) ∧
    decode (encXYN 0x8 x y 0x2) = .instr (.andReg x y) ∧
    (∃ t, exec (.andReg x y) s = .next t ∧ t.pc = s.pc + 2 ∧
      (∀ r, t.readV r = if r = x then s.readV x &&& s.readV y else s.readV r) ∧ Frame [.v, .pc] s t) ∧
    decode (encXYN 0x8 x y 0x3) = .instr (.xorReg x y) ∧
    (∃ t, exec (.xorReg x y) s = .next t ∧ t.pc = s.pc + 2 ∧
      (∀ r, t.readV r = if r = x then s.readV x ^^^ s.readV y else s.readV r) ∧ Frame [.v, .pc] s t)

/-- The word 7xkk is ADD Vx, byte: Vx gets the sum mod 256 and no flag is written (42_register_alu.md R192). -/
def Obligations.AddImmediateWithoutFlag : Prop :=
  ∀ (x : Nibble) (kk : Byte) (s : State),
    decode (encXKK 0x7 x kk) = .instr (.addImm x kk) ∧
    ∃ t, exec (.addImm x kk) s = .next t ∧ t.pc = s.pc + 2 ∧
      (t.readV x).toNat = ((s.readV x).toNat + kk.toNat) % 256 ∧
      (∀ r, r ≠ x → t.readV r = s.readV r) ∧ Frame [.v, .pc] s t

/-- ADD Vx, Vy: the sum mod 256, and VF = 1 iff the unsigned sum exceeds 255. With x = F the flag is what VF holds:
the spec's decision D9 (log 12; 42_register_alu.md, section 4). -/
def Obligations.AddWithCarry : Prop :=
  ∀ (x y : Nibble) (s : State),
    ∃ t, exec (.addReg x y) s = .next t ∧ t.pc = s.pc + 2 ∧
      (x ≠ 0xF#4 → (t.readV x).toNat = ((s.readV x).toNat + (s.readV y).toNat) % 256) ∧
      (t.readV 0xF#4).toNat = (if 255 < (s.readV x).toNat + (s.readV y).toNat then 1 else 0) ∧
      (∀ r, r ≠ x → r ≠ 0xF#4 → t.readV r = s.readV r) ∧ Frame [.v, .pc] s t

/-- SUB and SUBN: the difference mod 256, as an integer, and VF = 1 iff no borrow occurred. With x = F the flag is
what VF holds: the spec's decision D9 (log 12; 42_register_alu.md, section 4). -/
def Obligations.SubtractWithNotBorrow : Prop :=
  ∀ (x y : Nibble) (s : State),
    (∃ t, exec (.subReg x y) s = .next t ∧ t.pc = s.pc + 2 ∧
      (x ≠ 0xF#4 → ((t.readV x).toNat : Int) = ((s.readV x).toNat - (s.readV y).toNat : Int) % 256) ∧
      (t.readV 0xF#4).toNat = (if (s.readV y).toNat ≤ (s.readV x).toNat then 1 else 0) ∧
      (∀ r, r ≠ x → r ≠ 0xF#4 → t.readV r = s.readV r) ∧ Frame [.v, .pc] s t) ∧
    (∃ t, exec (.subn x y) s = .next t ∧ t.pc = s.pc + 2 ∧
      (x ≠ 0xF#4 → ((t.readV x).toNat : Int) = ((s.readV y).toNat - (s.readV x).toNat : Int) % 256) ∧
      (t.readV 0xF#4).toNat = (if (s.readV x).toNat ≤ (s.readV y).toNat then 1 else 0) ∧
      (∀ r, r ≠ x → r ≠ 0xF#4 → t.readV r = s.readV r) ∧ Frame [.v, .pc] s t)

/-- SHR and SHL shift Vx by one bit, whatever y is, and VF gets the bit shifted out. With x = F the flag is what VF
holds, decision D9; that SHL shifts Vx is decision D32 (log 12, 25; 42_register_alu.md, section 4). -/
def Obligations.ShiftsWithBitOut : Prop :=
  ∀ (x y : Nibble) (s : State),
    (∃ t, exec (.shr x y) s = .next t ∧ t.pc = s.pc + 2 ∧
      (x ≠ 0xF#4 → (t.readV x).toNat = (s.readV x).toNat / 2) ∧
      (t.readV 0xF#4).toNat = (s.readV x).toNat % 2 ∧
      (∀ r, r ≠ x → r ≠ 0xF#4 → t.readV r = s.readV r) ∧ Frame [.v, .pc] s t) ∧
    (∃ t, exec (.shl x y) s = .next t ∧ t.pc = s.pc + 2 ∧
      (x ≠ 0xF#4 → (t.readV x).toNat = 2 * (s.readV x).toNat % 256) ∧
      (t.readV 0xF#4).toNat = (s.readV x).toNat / 128 ∧
      (∀ r, r ≠ x → r ≠ 0xF#4 → t.readV r = s.readV r) ∧ Frame [.v, .pc] s t)

/-- RND: Vx gets the byte rngNext draws, masked by kk, and the generator advances exactly once. It holds for every
generator; one draw per execution is the spec's decision D5 (log 7; 42_register_alu.md, section 5). -/
def Obligations.RandomDrawsOnce : Prop :=
  ∀ (x : Nibble) (kk : Byte) (s : State),
    ∃ t, exec (.rnd x kk) s = .next t ∧ t.pc = s.pc + 2 ∧
      (∀ r, t.readV r = if r = x then (Config.rngNext s.rng).1 &&& kk else s.readV r) ∧
      t.rng = (Config.rngNext s.rng).2 ∧ Frame [.v, .rng, .pc] s t

/-! ### Index register and memory transfers -/

/-- The word Annn is LD I, addr: I gets nnn (43_index_memory.md R240). -/
def Obligations.LoadIndex : Prop :=
  ∀ (nnn : Addr) (s : State),
    decode (encNNN 0xA nnn) = .instr (.ldI nnn) ∧
    ∃ t, exec (.ldI nnn) s = .next t ∧ t.pc = s.pc + 2 ∧ t.i.toNat = nnn.toNat ∧ Frame [.i, .pc] s t

/-- ADD I, Vx: I gets the sum mod 2^16 and VF is not written, the spec's decision D11 (log 14). LD F, Vx: I gets 5
times the digit, by GLYPH_INDEX_MODE, decisions D1 and D12 (log 15, 20; 43_index_memory.md, section 2). -/
def Obligations.AddIndexAndGlyphAddress : Prop :=
  ∀ (x : Nibble) (s : State),
    (∃ t, exec (.addI x) s = .next t ∧ t.pc = s.pc + 2 ∧
      t.i.toNat = (s.i.toNat + (s.readV x).toNat) % 65536 ∧ Frame [.i, .pc] s t) ∧
    (∃ t, exec (.ldF x) s = .next t ∧ t.pc = s.pc + 2 ∧
      (s.params.glyphIndexMode = .mask4 → t.i.toNat = 5 * ((s.readV x).toNat % 16)) ∧
      (s.params.glyphIndexMode = .full → t.i.toNat = 5 * (s.readV x).toNat) ∧ Frame [.i, .pc] s t)

/-- LD B, Vx: inside memory, the hundreds, tens and ones digits of Vx at I, I+1, I+2, every other byte as before,
I unchanged; else MemoryOutOfBounds with the first failing address (43_index_memory.md, section 2; the error is the
spec's decision D8, log 11, and that every address is writable its D24, log 27). -/
def Obligations.StoreDecimalDigits : Prop :=
  ∀ (x : Nibble) (s : State),
    (s.i.toNat + 3 ≤ 4096 →
      ∃ t, exec (.ldB x) s = .next t ∧ t.pc = s.pc + 2 ∧
        (Memory.read t.mem s.i.toNat).toNat = (s.readV x).toNat / 100 ∧
        (Memory.read t.mem (s.i.toNat + 1)).toNat = (s.readV x).toNat / 10 % 10 ∧
        (Memory.read t.mem (s.i.toNat + 2)).toNat = (s.readV x).toNat % 10 ∧
        (∀ a, a < s.i.toNat ∨ s.i.toNat + 3 ≤ a → Memory.read t.mem a = Memory.read s.mem a) ∧
        Frame [.mem, .pc] s t) ∧
    (4096 < s.i.toNat + 3 →
      ∃ t, exec (.ldB x) s = .next t ∧ Raised t (.memoryOutOfBounds (max s.i.toNat 4096)))

/-- LD [I], Vx: inside memory, V0..Vx at I..I+x, every other byte as before, I unchanged (the spec's decision D10,
log 13); else MemoryOutOfBounds with the first failing address (D8, log 11; 43_index_memory.md, section 2). Every
address is writable, decision D24 (log 27). -/
def Obligations.StoreRegisters : Prop :=
  ∀ (x : Nibble) (s : State),
    (s.i.toNat + x.toNat < 4096 →
      ∃ t, exec (.ldMemVx x) s = .next t ∧ t.pc = s.pc + 2 ∧
        (∀ y : Nibble, y.toNat ≤ x.toNat → Memory.read t.mem (s.i.toNat + y.toNat) = s.readV y) ∧
        (∀ a, a < s.i.toNat ∨ s.i.toNat + x.toNat < a → Memory.read t.mem a = Memory.read s.mem a) ∧
        Frame [.mem, .pc] s t) ∧
    (4096 ≤ s.i.toNat + x.toNat →
      ∃ t, exec (.ldMemVx x) s = .next t ∧ Raised t (.memoryOutOfBounds (max s.i.toNat 4096)))

/-- LD Vx, [I]: inside memory, V0..Vx get the bytes at I..I+x, the registers above Vx are unchanged, I is unchanged
(the spec's decision D10, log 13); else MemoryOutOfBounds with the first failing address (D8, log 11;
43_index_memory.md, section 2). -/
def Obligations.LoadRegisters : Prop :=
  ∀ (x : Nibble) (s : State),
    (s.i.toNat + x.toNat < 4096 →
      ∃ t, exec (.ldVxMem x) s = .next t ∧ t.pc = s.pc + 2 ∧
        (∀ y : Nibble, t.readV y =
          if y.toNat ≤ x.toNat then Memory.read s.mem (s.i.toNat + y.toNat) else s.readV y) ∧
        Frame [.v, .pc] s t) ∧
    (4096 ≤ s.i.toNat + x.toNat →
      ∃ t, exec (.ldVxMem x) s = .next t ∧ Raised t (.memoryOutOfBounds (max s.i.toNat 4096)))

/-- Storing V0..Vx and then loading V0..Vx at the same index address, in any state that has the memory the store left
and the I it started from, gives the stored registers back (43_index_memory.md, section 2; 95_test_vectors.md S9). It
does not rest on what the store does to I. That the store may go to any address inside memory is the spec's decision D24
(log 27). -/
def Obligations.StoreThenLoadRegisters : Prop :=
  ∀ (x : Nibble) (s : State), s.i.toNat + x.toNat < 4096 →
    ∃ t, exec (.ldMemVx x) s = .next t ∧
      ∀ u : State, u.mem = t.mem → u.i = s.i →
        ∃ r, exec (.ldVxMem x) u = .next r ∧ ∀ y : Nibble, y.toNat ≤ x.toNat → r.readV y = s.readV y

/-- A program may overwrite its own code: after LD [I], Vx a fetch at any pc whose two bytes were stored reads the
stored bytes (20_memory.md, section 4, which the spec derives). Every address is writable and an odd pc is fetched, the
spec's decisions D24 and D15 (log 18, 27). -/
def Obligations.FetchSeesStores : Prop :=
  ∀ (x : Nibble) (s : State) (pc : Word), s.i.toNat + x.toNat < 4096 → s.i.toNat ≤ pc.toNat →
    pc.toNat + 1 ≤ s.i.toNat + x.toNat →
    ∃ t, exec (.ldMemVx x) s = .next t ∧
      ∀ y : Nibble, s.i.toNat + y.toNat = pc.toNat →
        (t.setPc pc).fetch = .ok (wordOfBytes (s.readV y) (s.readV (y + 1)))

/-! ### Display -/

/-- CLS clears all 256 bytes of FB and leaves VF and everything else unchanged (44_display.md,
section 1). That FB has 256 bytes is the spec's decision D3 (log 21). -/
def Obligations.ClearDisplay : Prop :=
  ∀ s : State, ∃ t, exec .cls s = .next t ∧ t.pc = s.pc + 2 ∧ (∀ b, fbRead t.fb b = 0) ∧ Frame [.fb, .pc] s t

/-- DRW, pixel by pixel: where its sprite bytes are inside memory (n = 0 needs none), the pixels the sprite covers,
wrapped at both edges, are inverted and no other, VF = 1 iff one of them was lit, and nothing else changes
(44_display.md, section 2, which the spec derives; HEIGHT = 32 and Dxy0 are its decisions D3 and D16, log 19, 21). -/
def Obligations.DrawInvertsCoveredPixels : Prop :=
  ∀ (x y n : Nibble) (s : State), n = 0 ∨ s.i.toNat + n.toNat ≤ 4096 →
    ∃ t, exec (.drw x y n) s = .next t ∧ t.pc = s.pc + 2 ∧
      (∀ px py, pixel t.fb px py =
        (pixel s.fb px py ^^ spriteCovers s.mem s.i.toNat (s.readV x) (s.readV y) n.toNat px py)) ∧
      ((∃ px py, pixel s.fb px py = true ∧
          spriteCovers s.mem s.i.toNat (s.readV x) (s.readV y) n.toNat px py = true) → t.readV 0xF#4 = 1) ∧
      ((∀ px py, pixel s.fb px py = true →
          spriteCovers s.mem s.i.toNat (s.readV x) (s.readV y) n.toNat px py = false) → t.readV 0xF#4 = 0) ∧
      (∀ r, r ≠ 0xF#4 → t.readV r = s.readV r) ∧ Frame [.fb, .v, .pc] s t

/-- DRW of a sprite that leaves memory raises MemoryOutOfBounds with the first failing address: the spec's decision
D8 (log 11; 44_display.md, section 1). -/
def Obligations.DrawOutOfBounds : Prop :=
  ∀ (x y n : Nibble) (s : State), n ≠ 0 → 4096 < s.i.toNat + n.toNat →
    ∃ t, exec (.drw x y n) s = .next t ∧ Raised t (.memoryOutOfBounds (max s.i.toNat 4096))

/-- Drawing the same sprite twice at the same position restores every pixel, and the second draw sets VF = 1 exactly
when the sprite covers a pixel that was dark before the first (44_display.md, section 2). The second draw starts in any
state with the framebuffer the first left and the same memory, I, Vx and Vy. The spec's derived sentence that the second
draw sets VF = 1 whenever the sprite has any set bit does not follow where every covered pixel was lit (log 34). The
wrap at 32 rows and Dxy0 are the spec's decisions D3 and D16 (log 19, 21). -/
def Obligations.DrawTwiceRestores : Prop :=
  ∀ (x y n : Nibble) (s : State), n = 0 ∨ s.i.toNat + n.toNat ≤ 4096 →
    ∃ t, exec (.drw x y n) s = .next t ∧
      ∀ u : State, u.fb = t.fb → u.mem = s.mem → u.i = s.i → u.readV x = s.readV x → u.readV y = s.readV y →
        ∃ r, exec (.drw x y n) u = .next r ∧ (∀ px py, pixel r.fb px py = pixel s.fb px py) ∧
          (r.readV 0xF#4 = 1 ↔ ∃ px py, pixel s.fb px py = false ∧
            spriteCovers s.mem s.i.toNat (s.readV x) (s.readV y) n.toNat px py = true)

/-! ### Keypad and timers -/

/-- SKP and SKNP on a key number of 0..F: pc + 4 or pc + 2 by the key's bit of KEYS, and nothing else changes
(45_keys_timers.md, sections 1 and 2). -/
def Obligations.KeySkips : Prop :=
  ∀ (x : Nibble) (s : State), (s.readV x).toNat ≤ 0xF →
    (∃ t, exec (.skp x) s = .next t ∧
      t.pc = (if keyBit s.keys (s.readV x).toNat then s.pc + 4 else s.pc + 2) ∧ Frame [.pc] s t) ∧
    (∃ t, exec (.sknp x) s = .next t ∧
      t.pc = (if keyBit s.keys (s.readV x).toNat then s.pc + 2 else s.pc + 4) ∧ Frame [.pc] s t)

/-- SKP and SKNP on a number above F, under each KEY_RANGE_POLICY: fatal raises KeyIndexOutOfRange, mask4 takes the
low nibble, not_pressed reads as up. The default fatal is the spec's decision D13 (log 16; 45_keys_timers.md,
section 1). -/
def Obligations.KeyNumberOutOfRange : Prop :=
  ∀ (x : Nibble) (s : State), 0xF < (s.readV x).toNat →
    (s.params.keyRangePolicy = .fatal →
      (∃ t, exec (.skp x) s = .next t ∧ Raised t (.keyIndexOutOfRange (s.readV x))) ∧
      (∃ t, exec (.sknp x) s = .next t ∧ Raised t (.keyIndexOutOfRange (s.readV x)))) ∧
    (s.params.keyRangePolicy = .mask4 →
      (∃ t, exec (.skp x) s = .next t ∧
        t.pc = (if keyBit s.keys ((s.readV x).toNat % 16) then s.pc + 4 else s.pc + 2) ∧ Frame [.pc] s t) ∧
      (∃ t, exec (.sknp x) s = .next t ∧
        t.pc = (if keyBit s.keys ((s.readV x).toNat % 16) then s.pc + 2 else s.pc + 4) ∧ Frame [.pc] s t)) ∧
    (s.params.keyRangePolicy = .notPressed →
      (∃ t, exec (.skp x) s = .next t ∧ t.pc = s.pc + 2 ∧ Frame [.pc] s t) ∧
      (∃ t, exec (.sknp x) s = .next t ∧ t.pc = s.pc + 4 ∧ Frame [.pc] s t))

/-- The word Fx0A is LD Vx, K: the lowest key that is down goes to Vx and pc advances; with no key down nothing
changes, pc neither (45_keys_timers.md, section 2). -/
def Obligations.WaitForKey : Prop :=
  ∀ (x : Nibble) (s : State),
    decode (encXKK 0xF x 0x0A) = .instr (.ldVxK x) ∧
    (∀ k, k < 16 → keyBit s.keys k = true → (∀ j, j < k → keyBit s.keys j = false) →
      ∃ t, exec (.ldVxK x) s = .next t ∧ t.pc = s.pc + 2 ∧ (t.readV x).toNat = k ∧
        (∀ r, r ≠ x → t.readV r = s.readV r) ∧ Frame [.v, .pc] s t) ∧
    ((∀ k, k < 16 → keyBit s.keys k = false) → exec (.ldVxK x) s = .next s)

/-- The word Fx07 is LD Vx, DT: Vx gets DT (45_keys_timers.md, section 2). -/
def Obligations.ReadDelayTimer : Prop :=
  ∀ (x : Nibble) (s : State),
    decode (encXKK 0xF x 0x07) = .instr (.ldVxDt x) ∧
    ∃ t, exec (.ldVxDt x) s = .next t ∧ t.pc = s.pc + 2 ∧
      (∀ r, t.readV r = if r = x then s.dt else s.readV r) ∧ Frame [.v, .pc] s t

/-- LD DT, Vx and LD ST, Vx: the timer gets Vx, the other timer and tone are unchanged (45_keys_timers.md,
section 2). -/
def Obligations.WriteTimers : Prop :=
  ∀ (x : Nibble) (s : State),
    (∃ t, exec (.ldDtVx x) s = .next t ∧ t.pc = s.pc + 2 ∧ t.dt = s.readV x ∧ Frame [.dt, .pc] s t) ∧
    (∃ t, exec (.ldStVx x) s = .next t ∧ t.pc = s.pc + 2 ∧ t.st = s.readV x ∧ Frame [.st, .pc] s t)

/-! ### All instructions -/

/-- Every instruction, in every state, answers a next state: it completes with status unchanged, or it raises the one
error that 60_exceptions.md R370 gives it in that state, and it raises that error exactly there (R378; the errors of
codes 4 to 7 are the spec's decisions D7, D8, D13). -/
def Obligations.OnlyTheseErrors : Prop :=
  ∀ (i : Instr) (s : State),
    ∃ t, exec i s = .next t ∧
      ((t.status = s.status ∧ ∀ e, ¬ Raises i s e) ∨ (∃ e, Raises i s e ∧ t = s.raise e))

/-- Which instructions write which part of the state (10_state.md, sections 2 to 7; 20_memory.md, section 1;
45_keys_timers.md, section 1). An instruction that completes never changes KEYS, tone, budget, status, phase or the
model's own parts; pc any instruction may write; and every other part is changed only by the instructions the spec names
for it, a general register only by those whose row of the table of 10_state.md R34 names it. Resting on the spec's
decisions: when an instruction completes, D7, D8, D13 (log 10, 11, 16); that Fx55 and Fx65 keep I, D10 (log 13); that
Fx1E keeps VF, D11 (log 14); that only Cxkk draws from the generator, D5 (log 7). -/
def Obligations.WritersOfEachPart : Prop :=
  ∀ (i : Instr) (s t : State), (∀ e, ¬ Raises i s e) → exec i s = .next t →
    Frame [.mem, .v, .i, .pc, .stack, .dt, .st, .fb, .rng] s t ∧
    (∀ r, writesV i r = false → t.readV r = s.readV r) ∧
    ((∀ x, i ≠ .ldB x) → (∀ x, i ≠ .ldMemVx x) → Part.Same s t .mem) ∧
    ((∀ nnn, i ≠ .ldI nnn) → (∀ x, i ≠ .addI x) → (∀ x, i ≠ .ldF x) → t.i = s.i) ∧
    ((∀ nnn, i ≠ .call nnn) → t.stack = s.stack) ∧
    ((∀ nnn, i ≠ .call nnn) → i ≠ .ret → t.sp = s.sp) ∧
    ((∀ x, i ≠ .ldDtVx x) → t.dt = s.dt) ∧
    ((∀ x, i ≠ .ldStVx x) → t.st = s.st) ∧
    (i ≠ .cls → (∀ x y n, i ≠ .drw x y n) → t.fb = s.fb) ∧
    ((∀ x kk, i ≠ .rnd x kk) → t.rng = s.rng)

/-- No instruction's effect depends on the budget or the costs: run in two states that differ only in budget and cost
table, it completes in both or raises the same error in both, and where it completes the two next states again differ
only there (70_reset_and_hazards.md, section 5, which the spec derives). -/
def Obligations.EffectsIgnoreCosts : Prop :=
  ∀ (i : Instr) (s : State) (b : Int) (c : CostTable),
    ∃ t u, exec i s = .next t ∧
      exec i { s with budget := b, params := { s.params with costs := c } } = .next u ∧
      (((∀ e, ¬ Raises i s e) → u = { t with budget := b, params := { t.params with costs := c } }) ∧
       ∀ e, Raises i s e → t.status = .faulted e ∧ u.status = .faulted e)

/-! ### The frame stepper -/

/-- A step runs the decoded instruction: in a Running core in Fetching with a budget above 0, whose word at pc is
inside memory and decodes to i, the step is Execute(i) in phase Executing, and then, if the instruction completed,
its cost is charged and the phase is Fetching while budget > 0, else FrameComplete; if it raised a fatal error nothing
is charged (48_frame_stepper.md, section 2). That the whole InstructionStep is one step is the model's choice (log 1);
an odd pc is fetched like an even one, decision D15 (log 18). -/
def Obligations.StepRunsDecodedInstruction : Prop :=
  ∀ (s : State) (i : Instr), s.phase = .fetching → s.status = .running → 0 < s.budget → s.pc.toNat + 1 < 4096 →
    decode (wordOfBytes (Memory.read s.mem s.pc.toNat) (Memory.read s.mem (s.pc.toNat + 1))) = .instr i →
    ∃ t, exec i { s with phase := .executing } = .next t ∧
      ((t.status = .running ∧ step s = .next
        { t with
          budget := t.budget - (t.params.cost i.operation : Int)
          phase := if 0 < t.budget - (t.params.cost i.operation : Int) then .fetching else .frameComplete }) ∨
       (t.status ≠ .running ∧ step s = .next t))

/-- The fetch and decode errors of an instruction step: ProgramCounterOutOfBounds(pc) when pc + 1 is not inside memory,
whatever stands there, else InvalidOpcode(w) for an invalid word (60_exceptions.md, sections 1 and 2; what the first
carries is the spec's decision D27, log 33). -/
def Obligations.FetchAndDecodeErrors : Prop :=
  ∀ s : State, s.phase = .fetching → s.status = .running → 0 < s.budget →
    (4096 ≤ s.pc.toNat + 1 → ∃ t, step s = .next t ∧ Raised t (.programCounterOutOfBounds s.pc)) ∧
    (s.pc.toNat + 1 < 4096 → ∀ w,
      decode (wordOfBytes (Memory.read s.mem s.pc.toNat) (Memory.read s.mem (s.pc.toNat + 1))) = .invalidOpcode w →
      ∃ t, step s = .next t ∧ Raised t (.invalidOpcode w))

/-- StepFrame(keys) starts a frame: KEYS is latched, each timer counts down by 1 and stops at 0, tone is whether ST
was nonzero before, budget grows by 16666, and an instruction is fetched only if it is then above 0; nothing else
changes (48_frame_stepper.md R332, R340 to R344, R352). That StepFrame takes no elapsed time and each frame adds the
fixed 16666 is the spec's decision D23, its conflict C1 (log 32); that the start is a step of its own is the model's
choice (log 1). -/
def Obligations.FrameStart : Prop :=
  ∀ (s : State) (keys : Word) (later : List HostRequest), s.phase = .idle → s.status = .running →
    s.requests = .stepFrame keys :: later →
    ∃ t, step s = .next t ∧ t.keys = keys ∧ t.dt.toNat = s.dt.toNat - 1 ∧ t.st.toNat = s.st.toNat - 1 ∧
      (t.tone = true ↔ s.st ≠ 0) ∧ t.budget = s.budget + 16666 ∧
      (0 < t.budget → t.phase = .fetching) ∧ (t.budget ≤ 0 → t.phase = .frameComplete) ∧ t.requests = later ∧
      Frame [.keys, .dt, .st, .tone, .budget, .phase, .requests, .reply] s t

/-- A frame that ends without error returns FB and the tone flag, phase is Idle, and every other part of the state
persists (48_frame_stepper.md R348). -/
def Obligations.FrameReturn : Prop :=
  ∀ s : State, s.phase = .frameComplete → s.status = .running →
    ∃ t, step s = .next t ∧ t.phase = .idle ∧ t.reply = some (.frame s.fb s.tone) ∧ Frame [.phase, .reply] s t

/-- Every StepFrame ends: from Idle with a budget of at most 0, a StepFrame is over within 16668 steps (its start, at
most 16666 instruction steps, its return): the core is in Idle again with the host's other requests untouched, and the
host has the frame, or the fatal error that ended it (48_frame_stepper.md, section 2, which the spec derives). It rests
on every cost being at least 1, decision D4 (log 5), on the fixed 16666 a frame, decision D23 (log 32), and, for the
count of steps, on the model's cut of a frame into steps (log 1). -/
def Obligations.EveryFrameEnds : Prop :=
  ∀ (s : State) (keys : Word) (later : List HostRequest), s.phase = .idle → s.status = .running → s.budget ≤ 0 →
    s.requests = .stepFrame keys :: later →
    ∃ k t, k ≤ 16668 ∧ core.run k s = .next t ∧ t.phase = .idle ∧ t.requests = later ∧
      ((t.status = .running ∧ t.reply = some (.frame t.fb t.tone)) ∨
       (∃ e, t.status = .faulted e ∧ t.reply = some (.failed e)))

/-- A completed DRW ends its frame: with a budget of at most 16666 it leaves at most -6068 and the phase is
FrameComplete (70_reset_and_hazards.md, section 5, which the spec derives; log 6). -/
def Obligations.DrawEndsFrame : Prop :=
  ∀ (s t : State) (x y n : Nibble), s.phase = .fetching → s.status = .running → 0 < s.budget → s.budget ≤ 16666 →
    s.pc.toNat + 1 < 4096 →
    decode (wordOfBytes (Memory.read s.mem s.pc.toNat) (Memory.read s.mem (s.pc.toNat + 1))) = .instr (.drw x y n) →
    step s = .next t → t.status = .running → t.phase = .frameComplete ∧ t.budget ≤ -6068

/-- Over all steps inside a frame that raise no error: KEYS and tone never change, DT changes only where the word at pc
decodes to Fx15 and ST only where it decodes to Fx18; no instruction counts a timer down (45_keys_timers.md, section 1;
for tone 48_frame_stepper.md, section 2, R342; 70_reset_and_hazards.md, section 4, which the spec derives). What
a step is, is the model's choice (log 1, 30). -/
def Obligations.KeysAndTimersInsideFrame : Prop :=
  ∀ s t : State, step s = .next t → s.status = .running → t.status = .running → s.phase ≠ .idle →
    t.keys = s.keys ∧ t.tone = s.tone ∧
    (t.dt ≠ s.dt → ∃ x, decode (wordOfBytes (Memory.read s.mem s.pc.toNat) (Memory.read s.mem (s.pc.toNat + 1))) =
      .instr (.ldDtVx x)) ∧
    (t.st ≠ s.st → ∃ x, decode (wordOfBytes (Memory.read s.mem s.pc.toNat) (Memory.read s.mem (s.pc.toNat + 1))) =
      .instr (.ldStVx x))

/-! ### Reset and the host -/

/-- State.reset is the state after Construct (10_state.md, section 8; where the spec's values are its decisions D1, D2,
D17 see log 20, 22). -/
def Obligations.ResetState : Prop :=
  AfterConstruct Config.seed State.reset ∧ State.reset.requests = [] ∧ State.reset.params = Config.params

/-- Construct(seed), issued in Idle to a Running or a Faulted core, makes a new core in the reset state for that seed
(70_reset_and_hazards.md, section 1; D1, D2, D17 and D19, log 20, 22, 31). -/
def Obligations.ConstructMakesNewCore : Prop :=
  ∀ (s : State) (seed : Seed) (later : List HostRequest), s.phase = .idle → s.requests = .construct seed :: later →
    ∃ t, step s = .next t ∧ AfterConstruct seed t ∧ t.reply = some .constructed ∧ t.requests = later ∧
      t.params = s.params

/-- LoadProgram of at most 3584 bytes, in Idle while Running, writes them from 0x200 and no other byte; a longer one is
rejected with its length and leaves memory unchanged. Neither changes anything else, status neither
(70_reset_and_hazards.md, section 2; that a load changes memory only is the spec's decision D22, log 23). -/
def Obligations.LoadProgramWritesOrRejects : Prop :=
  ∀ (s : State) (bytes : List Byte) (later : List HostRequest), s.phase = .idle → s.status = .running →
    s.requests = .loadProgram bytes :: later →
    ∃ t, step s = .next t ∧ t.requests = later ∧ Frame [.mem, .requests, .reply] s t ∧
      (bytes.length ≤ 3584 → t.reply = some .loaded ∧
        ∀ a, Memory.read t.mem a =
          if 0x200 ≤ a ∧ a < 0x200 + bytes.length then bytes.getD (a - 0x200) 0 else Memory.read s.mem a) ∧
      (3584 < bytes.length → t.reply = some (.programTooLarge bytes.length) ∧ Part.Same s t .mem)

/-- ReadFramebuffer, in Idle, Running or Faulted, answers the 256 bytes of FB and changes nothing else
(48_frame_stepper.md R354). -/
def Obligations.ReadFramebufferAnswers : Prop :=
  ∀ (s : State) (later : List HostRequest), s.phase = .idle → s.requests = .readFramebuffer :: later →
    ∃ t, step s = .next t ∧ t.requests = later ∧ Frame [.requests, .reply] s t ∧
      ∃ f, t.reply = some (.framebuffer f) ∧ ∀ b, fbRead f b = fbRead s.fb b

/-- A Faulted core is terminal: StepFrame and LoadProgram have no transition, and whatever step is taken, the core stays
Faulted with the same error unless it is a Construct (48_frame_stepper.md, section 3; the spec's decision D19, log 9). -/
def Obligations.FaultedIsTerminal : Prop :=
  ∀ (s : State) (e : FatalError), s.status = .faulted e →
    (∀ (keys : Word) (later : List HostRequest), s.phase = .idle → s.requests = .stepFrame keys :: later →
      step s = .fault (.coreFaulted e)) ∧
    (∀ (bytes : List Byte) (later : List HostRequest), s.phase = .idle → s.requests = .loadProgram bytes :: later →
      step s = .fault (.coreFaulted e)) ∧
    (∀ t, step s = .next t →
      t.status = .faulted e ∨
        ∃ seed later, s.requests = .construct seed :: later ∧ t = State.construct s.params seed later)

/-- A Running core never stops: every step of it answers a next state (48_frame_stepper.md, sections 1 and 2; no
instruction, no fetch, no host transaction lacks a transition). With no request pending the model's step leaves the state
as it is (log 2), and in states no run reaches it does what log 30 says. -/
def Obligations.RunningCoreAlwaysSteps : Prop :=
  ∀ s : State, s.status = .running → ∃ t, step s = .next t

/-! ### Invariants -/

/-- The reset state meets the invariant (10_state.md, section 8). The canonical form of memory is the model's own (log
29); the reset budget 0 is the spec's decision D17 (log 22). -/
def Obligations.InvariantAtReset : Prop := Inv State.reset

/-- Every step keeps the invariant: memory stays canonical, a Faulted core stays in Idle, pc stays at most 0x10FE and
the return addresses at most 0x1000, budget stays in the range of its phase (10_state.md, sections 4 and 7;
48_frame_stepper.md, section 2). The parts rest on choices: the canonical form is the model's own (log 29) and so is the
cut into steps (log 1); Faulted in Idle is the spec's decision D19 (log 9), the return addresses its D6 (log 24), 0x10FE
its D31 (log 25), the budget range its D4 with the two given costs (log 5, 6), its fixed period D23 (log 32) and its
reset budget D17 (log 22). -/
def Obligations.StepKeepsInvariant : Prop :=
  ∀ s t : State, Inv s → step s = .next t → Inv t

/-- The parameters of the core are fixed: no step changes them (10_state.md, section 7; log 4). -/
def Obligations.ParametersFixed : Prop :=
  ∀ s t : State, step s = .next t → t.params = s.params

/-- Memory has one canonical form: two well-formed memories that read the same at every address are equal data
(20_memory.md, section 1; the model's form, log 29). -/
def Obligations.MemoryCanonical : Prop :=
  ∀ m m' : Memory, Memory.wf m = true → Memory.wf m' = true →
    (∀ a, Memory.read m a = Memory.read m' a) → m = m'
end

