-- ==== Sys2Proof/Laws/Encoding.lean ====
section
/-! SUPPORT. The fields of an encoded word, so that no proof about decoding unfolds a concatenation. -/

namespace Sys2Proof

section
variable (op x y n : Nibble) (kk : Byte) (nnn : Addr)

/-- A concatenation as a number, its first part in the high bits. -/
theorem toNat_append_eq {k m : Nat} (a : BitVec k) (b : BitVec m) : (a ++ b).toNat = a.toNat * 2 ^ m + b.toNat := by
  rw [BitVec.toNat_append, Nat.shiftLeft_eq, Nat.mul_comm, ← Nat.two_pow_add_eq_or_of_lt b.isLt]

theorem encNNN_toNat : (encNNN op nnn).toNat = op.toNat * 4096 + nnn.toNat :=
  toNat_append_eq op nnn

theorem encXKK_toNat : (encXKK op x kk).toNat = op.toNat * 4096 + x.toNat * 256 + kk.toNat := by
  have h : (encXKK op x kk).toNat = op.toNat * 2 ^ 12 + (x ++ kk).toNat := toNat_append_eq op (x ++ kk)
  rw [h, toNat_append_eq x kk]; omega

theorem encXYN_toNat : (encXYN op x y n).toNat = op.toNat * 4096 + x.toNat * 256 + y.toNat * 16 + n.toNat := by
  have h : (encXYN op x y n).toNat = op.toNat * 2 ^ 12 + (x ++ (y ++ n)).toNat := toNat_append_eq op (x ++ (y ++ n))
  have h' : (x ++ (y ++ n)).toNat = x.toNat * 2 ^ 8 + (y ++ n).toNat := toNat_append_eq x (y ++ n)
  rw [h, h', toNat_append_eq y n]; omega

theorem fieldOp_toNat (w : Word) : (fieldOp w).toNat = w.toNat / 4096 := by
  have := w.isLt
  simp [fieldOp, Nat.shiftRight_eq_div_pow]; omega

theorem fieldX_toNat (w : Word) : (fieldX w).toNat = w.toNat / 256 % 16 := by
  simp [fieldX, Nat.shiftRight_eq_div_pow]

theorem fieldY_toNat (w : Word) : (fieldY w).toNat = w.toNat / 16 % 16 := by
  simp [fieldY, Nat.shiftRight_eq_div_pow]

theorem fieldN_toNat (w : Word) : (fieldN w).toNat = w.toNat % 16 := by
  simp [fieldN]

theorem fieldKk_toNat (w : Word) : (fieldKk w).toNat = w.toNat % 256 := by
  simp [fieldKk]

theorem fieldNnn_toNat (w : Word) : (fieldNnn w).toNat = w.toNat % 4096 := by
  simp [fieldNnn]

@[simp] theorem fieldOp_encNNN : fieldOp (encNNN op nnn) = op := by
  have := nnn.isLt
  apply BitVec.eq_of_toNat_eq; rw [fieldOp_toNat, encNNN_toNat]; omega

@[simp] theorem fieldNnn_encNNN : fieldNnn (encNNN op nnn) = nnn := by
  have := nnn.isLt
  apply BitVec.eq_of_toNat_eq; rw [fieldNnn_toNat, encNNN_toNat]; omega

@[simp] theorem fieldOp_encXKK : fieldOp (encXKK op x kk) = op := by
  have := x.isLt; have := kk.isLt
  apply BitVec.eq_of_toNat_eq; rw [fieldOp_toNat, encXKK_toNat]; omega

@[simp] theorem fieldX_encXKK : fieldX (encXKK op x kk) = x := by
  have := x.isLt; have := kk.isLt
  apply BitVec.eq_of_toNat_eq; rw [fieldX_toNat, encXKK_toNat]; omega

@[simp] theorem fieldKk_encXKK : fieldKk (encXKK op x kk) = kk := by
  have := kk.isLt
  apply BitVec.eq_of_toNat_eq; rw [fieldKk_toNat, encXKK_toNat]; omega

@[simp] theorem fieldOp_encXYN : fieldOp (encXYN op x y n) = op := by
  have := x.isLt; have := y.isLt; have := n.isLt
  apply BitVec.eq_of_toNat_eq; rw [fieldOp_toNat, encXYN_toNat]; omega

@[simp] theorem fieldX_encXYN : fieldX (encXYN op x y n) = x := by
  have := x.isLt; have := y.isLt; have := n.isLt
  apply BitVec.eq_of_toNat_eq; rw [fieldX_toNat, encXYN_toNat]; omega

@[simp] theorem fieldY_encXYN : fieldY (encXYN op x y n) = y := by
  have := y.isLt; have := n.isLt
  apply BitVec.eq_of_toNat_eq; rw [fieldY_toNat, encXYN_toNat]; omega

@[simp] theorem fieldN_encXYN : fieldN (encXYN op x y n) = n := by
  have := n.isLt
  apply BitVec.eq_of_toNat_eq; rw [fieldN_toNat, encXYN_toNat]; omega

end

/-- A word is put together again from its fields. -/
theorem encNNN_fields (w : Word) : encNNN (fieldOp w) (fieldNnn w) = w := by
  apply BitVec.eq_of_toNat_eq; rw [encNNN_toNat, fieldOp_toNat, fieldNnn_toNat]; omega

theorem encXKK_fields (w : Word) : encXKK (fieldOp w) (fieldX w) (fieldKk w) = w := by
  apply BitVec.eq_of_toNat_eq; rw [encXKK_toNat, fieldOp_toNat, fieldX_toNat, fieldKk_toNat]; omega

theorem encXYN_fields (w : Word) : encXYN (fieldOp w) (fieldX w) (fieldY w) (fieldN w) = w := by
  apply BitVec.eq_of_toNat_eq
  rw [encXYN_toNat, fieldOp_toNat, fieldX_toNat, fieldY_toNat, fieldN_toNat]; omega

/-- The two bytes of a word make the word again (20_memory.md R76). -/
theorem wordOfBytes_bytes (w : Word) : wordOfBytes (firstByte w) (secondByte w) = w := by
  apply BitVec.eq_of_toNat_eq
  have hw := w.isLt
  have h := toNat_append_eq (firstByte w) (secondByte w)
  simp only [firstByte, secondByte, BitVec.extractLsb'_toNat, Nat.shiftRight_eq_div_pow] at h
  simp only [wordOfBytes, firstByte, secondByte]; omega

end Sys2Proof
end

