-- ==== Sys2Proof/Laws/Memory.lean ====
section
/-! SUPPORT. Memory: a read after a write, the canonical form, and what the transfers store and load. -/

namespace Sys2Proof.Machine

/-! ### Reading after erasing, inserting, writing -/

theorem Memory.read_erase (m : Memory) (a c : Nat) :
    Memory.read (Memory.erase m a) c = if c = a then Memory.unlisted a else Memory.read m c := by
  induction m with
  | nil => by_cases h : c = a <;> simp [Memory.erase, Memory.read, h]
  | cons p rest ih =>
    obtain ⟨b, w⟩ := p
    by_cases hb : b = a
    · subst hb
      by_cases hc : c = b
      · subst hc; simpa [Memory.erase] using ih
      · simp [Memory.erase, Memory.read, ih, hc, Ne.symm hc]
    · by_cases hc : b = c
      · subst hc; simp [Memory.erase, Memory.read, hb]
      · simp [Memory.erase, Memory.read, hb, hc, ih]

theorem Memory.read_insert_erase (m : Memory) (a c : Nat) (v : Byte) :
    Memory.read (Memory.insert (Memory.erase m a) a v) c = if c = a then v else Memory.read m c := by
  induction m with
  | nil =>
    by_cases h : c = a
    · simp [Memory.erase, Memory.insert, Memory.read, h]
    · simp [Memory.erase, Memory.insert, Memory.read, h, Ne.symm h]
  | cons p rest ih =>
    obtain ⟨b, w⟩ := p
    by_cases hb : b = a
    · subst hb
      by_cases hc : c = b
      · subst hc; simpa [Memory.erase] using ih
      · simp [Memory.erase, Memory.read, ih, hc, Ne.symm hc]
    · by_cases hlt : a < b
      · have hr := Memory.read_erase rest a c
        by_cases hc : c = a
        · simp [Memory.erase, Memory.insert, Memory.read, hb, hlt, hc]
        · simp [Memory.erase, Memory.insert, Memory.read, hb, hlt, hc, Ne.symm hc, hr]
      · by_cases hc : b = c
        · subst hc; simp [Memory.erase, Memory.insert, Memory.read, hb, hlt]
        · simp [Memory.erase, Memory.insert, Memory.read, hb, hlt, hc, ih]

/-- A read after a write: the byte written at its address, the byte before at every other one. -/
@[simp] theorem Memory.read_write (m : Memory) (a c : Nat) (v : Byte) :
    Memory.read (Memory.write m a v) c = if c = a then v else Memory.read m c := by
  unfold Memory.write
  split
  · rename_i h; rw [Memory.read_erase, h]
  · exact Memory.read_insert_erase m a c v

/-! ### The canonical form -/

theorem Memory.wfFrom_mono {lo lo' : Nat} {m : Memory} (h : lo' ≤ lo) (hm : Memory.wfFrom lo m = true) :
    Memory.wfFrom lo' m = true := by
  cases m with
  | nil => rfl
  | cons p rest =>
    simp only [Memory.wfFrom, Bool.and_eq_true, decide_eq_true_eq] at hm ⊢
    exact ⟨⟨⟨by omega, hm.1.1.2⟩, hm.1.2⟩, hm.2⟩

theorem Memory.wfFrom_erase {m : Memory} (a : Nat) {lo : Nat} (hm : Memory.wfFrom lo m = true) :
    Memory.wfFrom lo (Memory.erase m a) = true := by
  induction m generalizing lo with
  | nil => rfl
  | cons p rest ih =>
    obtain ⟨b, w⟩ := p
    simp only [Memory.wfFrom, Bool.and_eq_true, decide_eq_true_eq] at hm
    unfold Memory.erase
    split
    · exact Memory.wfFrom_mono (by omega) (ih hm.2)
    · simp only [Memory.wfFrom, Bool.and_eq_true, decide_eq_true_eq]
      exact ⟨hm.1, ih hm.2⟩

theorem Memory.wfFrom_insert_erase {m : Memory} {a : Nat} {v : Byte} {lo : Nat} (hlo : lo ≤ a)
    (ha : a < Config.memSize) (hv : v ≠ Memory.unlisted a) (hm : Memory.wfFrom lo m = true) :
    Memory.wfFrom lo (Memory.insert (Memory.erase m a) a v) = true := by
  induction m generalizing lo with
  | nil => simp [Memory.erase, Memory.insert, Memory.wfFrom, hlo, ha, hv]
  | cons p rest ih =>
    obtain ⟨b, w⟩ := p
    simp only [Memory.wfFrom, Bool.and_eq_true, decide_eq_true_eq] at hm
    by_cases hb : b = a
    · rw [Memory.erase, if_pos hb]
      exact ih hlo (Memory.wfFrom_mono (by omega) hm.2)
    · rw [Memory.erase, if_neg hb, Memory.insert]
      split
      · rename_i hlt
        have hr := Memory.wfFrom_erase a hm.2
        simp only [Memory.wfFrom, Bool.and_eq_true, decide_eq_true_eq]
        exact ⟨⟨⟨hlo, ha⟩, by simpa using hv⟩, ⟨⟨by omega, hm.1.1.2⟩, hm.1.2⟩, hr⟩
      · rename_i hge
        simp only [Memory.wfFrom, Bool.and_eq_true, decide_eq_true_eq]
        exact ⟨hm.1, ih (by omega) hm.2⟩

/-- A write inside the address space keeps the canonical form. -/
theorem Memory.wf_write {m : Memory} {a : Nat} (v : Byte) (ha : a < Config.memSize)
    (hm : Memory.wf m = true) : Memory.wf (Memory.write m a v) = true := by
  unfold Memory.write
  split
  · exact Memory.wfFrom_erase a hm
  · rename_i hv; exact Memory.wfFrom_insert_erase (Nat.zero_le a) ha hv hm

/-- The memory a fatal error leaves has the canonical form, whatever the free value is. -/
theorem Memory.wf_ofCells (cells : List Host.Cell) : Memory.wf (Memory.ofCells cells) = true := by
  suffices h : ∀ m : Memory, Memory.wf m = true → Memory.wf (cells.foldl
      (fun m c => if c.1 < Config.memSize then Memory.write m c.1 c.2 else m) m) = true from h [] rfl
  induction cells with
  | nil => exact fun m hm => hm
  | cons c rest ih =>
    intro m hm
    rw [List.foldl_cons]
    split
    · rename_i h; exact ih _ (Memory.wf_write c.2 h hm)
    · exact ih _ hm

/-- The reset memory has the canonical form. -/
theorem Memory.wf_nil : Memory.wf [] = true := rfl

/-! ### The bounds-checked accesses and the transfers -/

theorem memRead_ok {m : Memory} {a : Nat} (h : a < Config.memSize) : memRead m a = .ok (Memory.read m a) := by
  simp [memRead, Nat.not_le.mpr h]

theorem memRead_error {m : Memory} {a : Nat} (h : Config.memSize ≤ a) :
    memRead m a = .error (.memoryOutOfBounds a) := by
  simp [memRead, h]

theorem memWrite_ok {m : Memory} {a : Nat} {v : Byte} (h : a < Config.memSize) :
    memWrite m a v = .ok (Memory.write m a v) := by
  simp [memWrite, Nat.not_le.mpr h]

theorem memWrite_error {m : Memory} {a : Nat} {v : Byte} (h : Config.memSize ≤ a) :
    memWrite m a v = .error (.memoryOutOfBounds a) := by
  simp [memWrite, h]

/-- Everything a store of bytes can do inside memory: it completes, keeps the canonical form, and each address
reads the byte stored there or the byte before. -/
theorem storeBytes_ok (bs : List Byte) (m : Memory) (a : Nat) (h : a + bs.length ≤ Config.memSize) :
    ∃ m', storeBytes m a bs = .ok m' ∧ (Memory.wf m = true → Memory.wf m' = true) ∧
      ∀ c, Memory.read m' c = if a ≤ c ∧ c < a + bs.length then bs.getD (c - a) 0 else Memory.read m c := by
  induction bs generalizing m a with
  | nil => exact ⟨m, rfl, id, fun c => by simp⟩
  | cons b bs ih =>
    have ha : a < Config.memSize := by simp only [List.length_cons] at h; omega
    obtain ⟨m', h1, h2, h3⟩ := ih (Memory.write m a b) (a + 1) (by simp only [List.length_cons] at h; omega)
    refine ⟨m', by simp [storeBytes, memWrite_ok ha, h1], fun hm => h2 (Memory.wf_write b ha hm), fun c => ?_⟩
    rw [h3 c, Memory.read_write, List.length_cons]
    by_cases hc : c = a
    · subst hc; simp
    · by_cases hin : a + 1 ≤ c ∧ c < a + 1 + bs.length
      · rw [if_pos hin, if_pos (by omega)]
        obtain ⟨d, hd⟩ : ∃ d, c - a = d + 1 := ⟨c - a - 1, by omega⟩
        rw [hd, List.getD_cons_succ]
        congr 1; omega
      · rw [if_neg hin, if_neg hc, if_neg (by omega)]

/-- A store that leaves memory reports the first failing address. -/
theorem storeBytes_error (bs : List Byte) (m : Memory) (a : Nat) (h0 : bs ≠ [])
    (h : Config.memSize < a + bs.length) :
    storeBytes m a bs = .error (.memoryOutOfBounds (max a Config.memSize)) := by
  induction bs generalizing m a with
  | nil => exact absurd rfl h0
  | cons b bs ih =>
    by_cases ha : a < Config.memSize
    · have hne : bs ≠ [] := by rintro rfl; simp at h; omega
      have := ih (Memory.write m a b) (a + 1) hne (by simp only [List.length_cons] at h; omega)
      simp only [storeBytes, memWrite_ok ha, this]
      congr 2; omega
    · simp only [storeBytes, memWrite_error (Nat.not_lt.mp ha)]
      congr 2; omega

/-- Everything a load of bytes can do inside memory: it completes with the bytes of its addresses. -/
theorem loadBytes_ok (n : Nat) (m : Memory) (a : Nat) (h : a + n ≤ Config.memSize) :
    loadBytes m a n = .ok ((List.range n).map fun k => Memory.read m (a + k)) := by
  induction n generalizing a with
  | zero => rfl
  | succ n ih =>
    rw [loadBytes, memRead_ok (by omega), ih (a + 1) (by omega), List.range_succ_eq_map]
    simp only [List.map_cons, List.map_map, Nat.add_zero]
    congr 2
    apply List.map_congr_left
    intro k _
    simp only [Function.comp_apply]
    congr 1; omega

/-- A load that leaves memory reports the first failing address. -/
theorem loadBytes_error (n : Nat) (m : Memory) (a : Nat) (h0 : 0 < n) (h : Config.memSize < a + n) :
    loadBytes m a n = .error (.memoryOutOfBounds (max a Config.memSize)) := by
  induction n generalizing a with
  | zero => omega
  | succ n ih =>
    by_cases ha : a < Config.memSize
    · have := ih (a + 1) (by omega) (by omega)
      simp only [loadBytes, memRead_ok ha, this]
      congr 2; omega
    · simp only [loadBytes, memRead_error (Nat.not_lt.mp ha)]
      congr 2; omega

end Sys2Proof.Machine
end

