-- ==== Sys2Proof/Laws/Framebuffer.lean ====
section
/-! SUPPORT. The framebuffer: bytes and pixels after one XOR, a row, a sprite. -/

namespace Sys2Proof.Machine

@[simp] theorem fbRead_replicate (b : Fin 256) : fbRead (Vector.replicate 256 0) b = 0 := by
  simp [fbRead]

/-- Two framebuffers that read the same are the same. -/
theorem fb_eq_of_fbRead {f g : Framebuffer} (h : ∀ b, fbRead f b = fbRead g b) : f = g := by
  apply Vector.ext
  intro k hk
  exact h ⟨k, hk⟩

theorem fbIndex_inj {r r' : Fin 32} {c c' : Fin 8} : fbIndex r c = fbIndex r' c' ↔ r = r' ∧ c = c' := by
  simp only [fbIndex, Fin.ext_iff]
  omega

/-- A byte after one contribution is XORed in. -/
theorem fbRead_xorInto (fb : Framebuffer) (b c : Fin 256) (p : Byte) :
    fbRead (xorInto fb b p).1 c = if c = b then fbRead fb b ^^^ p else fbRead fb c := by
  simp only [fbRead, xorInto, Vector.getElem_set, Fin.ext_iff]
  by_cases h : c.val = b.val
  · simp [h]
  · simp [h, Ne.symm h]

/-- Whether a contribution meets a lit pixel. -/
theorem xorInto_hit (fb : Framebuffer) (b : Fin 256) (p : Byte) :
    (xorInto fb b p).2 = true ↔ ∃ k, k < 8 ∧ (fbRead fb b).getLsbD k = true ∧ p.getLsbD k = true := by
  simp only [xorInto, bne_iff_ne, ne_eq]
  constructor
  · intro h
    by_contra hn
    apply h
    apply BitVec.eq_of_getLsbD_eq
    intro k hk
    have hz : BitVec.getLsbD (0 : Byte) k = false := BitVec.getLsbD_zero
    rw [BitVec.getLsbD_and, hz, Bool.and_eq_false_iff]
    by_cases h1 : (fbRead fb b).getLsbD k = true
    · exact .inr (Bool.eq_false_iff.mpr fun h2 => hn ⟨k, hk, h1, h2⟩)
    · exact .inl (Bool.eq_false_iff.mpr h1)
  · rintro ⟨k, hk, h1, h2⟩ h
    have := congrArg (fun v => BitVec.getLsbD v k) h
    simp [h1, h2] at this

/-! ### Pixels after a row -/

/-- The set bit of a sprite byte drawn from column `px` that falls on the column `qx`. -/
def rowCovers (b : Byte) (px qx : Fin 64) : Bool :=
  decide ((qx.val + 64 - px.val) % 64 < 8) && b.getLsbD (7 - (qx.val + 64 - px.val) % 64)

/-- A pixel after one contribution to a column byte of a row. -/
theorem pixel_xorInto (fb : Framebuffer) (row : Fin 32) (col : Fin 8) (p : Byte) (qx : Fin 64) (qy : Fin 32) :
    pixel (xorInto fb (fbIndex row col) p).1 qx qy =
      (pixel fb qx qy ^^ (decide (qy = row ∧ qx.val / 8 = col.val) && p.getLsbD (7 - qx.val % 8))) := by
  unfold pixel
  rw [fbRead_xorInto]
  by_cases h : qy = row ∧ qx.val / 8 = col.val
  · have e : (⟨qx.val / 8, by omega⟩ : Fin 8) = col := Fin.ext h.2
    rw [if_pos (by rw [h.1, e]), BitVec.getLsbD_xor, decide_eq_true h, h.1, e]; simp
  · rw [if_neg (by rw [fbIndex_inj, Fin.ext_iff (n := 8)]; exact h), decide_eq_false h]; simp

/-- The part of a sprite byte in its first column byte. -/
theorem shiftRight_covers (b : Byte) (px qx : Fin 64) (h : qx.val / 8 = px.val / 8) :
    (b >>> (px.val % 8)).getLsbD (7 - qx.val % 8) = rowCovers b px qx := by
  rw [BitVec.getLsbD_ushiftRight, rowCovers]
  by_cases hs : px.val % 8 ≤ qx.val % 8
  · rw [decide_eq_true (by omega), Bool.true_and]; congr 1; omega
  · rw [decide_eq_false (by omega), Bool.false_and]; exact BitVec.getLsbD_of_ge _ _ (by omega)

/-- The part of a sprite byte in the next column byte. -/
theorem shiftLeft_covers (b : Byte) (px qx : Fin 64) (h : qx.val / 8 = (px.val / 8 + 1) % 8) :
    (b <<< (8 - px.val % 8)).getLsbD (7 - qx.val % 8) = rowCovers b px qx := by
  rw [BitVec.getLsbD_shiftLeft, rowCovers]
  by_cases hs : qx.val % 8 < px.val % 8
  · rw [decide_eq_true (p := (qx.val + 64 - px.val) % 64 < 8) (by omega), Bool.true_and,
      decide_eq_true (by omega), decide_eq_false (by omega)]
    simp only [Bool.not_false, Bool.true_and]; congr 1; omega
  · rw [decide_eq_false (p := (qx.val + 64 - px.val) % 64 < 8) (by omega), Bool.false_and,
      decide_eq_true (p := 7 - qx.val % 8 < 8 - px.val % 8) (by omega)]
    simp

/-- A sprite byte reaches its first column byte and the next one only. -/
theorem rowCovers_columns {b : Byte} {px qx : Fin 64} (h : rowCovers b px qx = true) :
    qx.val / 8 = px.val / 8 ∨ (px.val % 8 ≠ 0 ∧ qx.val / 8 = (px.val / 8 + 1) % 8) := by
  simp only [rowCovers, Bool.and_eq_true, decide_eq_true_eq] at h
  have := h.1
  omega

/-- Everything BlitRow does to the framebuffer: the pixels of its row that the sprite byte covers are inverted. -/
theorem blitRow_pixel (fb : Framebuffer) (b : Byte) (px : Fin 64) (row : Fin 32) (qx : Fin 64) (qy : Fin 32) :
    pixel (blitRow fb b px row).1 qx qy = (pixel fb qx qy ^^ (decide (qy = row) && rowCovers b px qx)) := by
  unfold blitRow
  dsimp only
  by_cases hr : qy = row
  · by_cases hs : px.val % 8 = 0
    · rw [if_pos hs, pixel_xorInto]
      by_cases h0 : qx.val / 8 = px.val / 8
      · rw [shiftRight_covers b px qx h0]; simp [hr, h0]
      · have : rowCovers b px qx = false := by
          apply Bool.eq_false_iff.mpr; intro h; have := rowCovers_columns h; omega
        simp [h0, this]
    · rw [if_neg hs, pixel_xorInto, pixel_xorInto]
      by_cases h0 : qx.val / 8 = px.val / 8
      · have h1 : ¬ qx.val / 8 = (px.val / 8 + 1) % 8 := by omega
        rw [shiftRight_covers b px qx h0]; simp [hr, h0, show ¬ px.val / 8 = (px.val / 8 + 1) % 8 by omega]
      · by_cases h1 : qx.val / 8 = (px.val / 8 + 1) % 8
        · rw [shiftLeft_covers b px qx h1]; simp [hr, h1, show ¬ (px.val / 8 + 1) % 8 = px.val / 8 by omega]
        · have : rowCovers b px qx = false := by
            apply Bool.eq_false_iff.mpr; intro h; have := rowCovers_columns h; omega
          simp [h0, h1, this]
  · split <;> simp [pixel_xorInto, hr]

/-- Whether a contribution to a column byte of a row meets a lit pixel, said of pixels. -/
theorem xorInto_hit_pixel (fb : Framebuffer) (row : Fin 32) (col : Fin 8) (p : Byte) :
    (xorInto fb (fbIndex row col) p).2 = true ↔
      ∃ qx : Fin 64, qx.val / 8 = col.val ∧ pixel fb qx row = true ∧ p.getLsbD (7 - qx.val % 8) = true := by
  rw [xorInto_hit]
  constructor
  · rintro ⟨k, hk, h1, h2⟩
    refine ⟨⟨col.val * 8 + (7 - k), by omega⟩, by simp only; omega, ?_, ?_⟩
    · have e : (⟨(col.val * 8 + (7 - k)) / 8, by omega⟩ : Fin 8) = col := Fin.ext (by simp only; omega)
      have e2 : 7 - (col.val * 8 + (7 - k)) % 8 = k := by omega
      simp only [pixel, e, e2]; exact h1
    · have e2 : 7 - (col.val * 8 + (7 - k)) % 8 = k := by omega
      simp only [e2]; exact h2
  · rintro ⟨qx, h0, h1, h2⟩
    have e : (⟨qx.val / 8, by omega⟩ : Fin 8) = col := Fin.ext h0
    refine ⟨7 - qx.val % 8, by omega, ?_, h2⟩
    simp only [pixel, e] at h1; exact h1

/-- BlitRow's collision: a lit pixel of its row that the sprite byte covers. -/
theorem blitRow_hit (fb : Framebuffer) (b : Byte) (px : Fin 64) (row : Fin 32) :
    (blitRow fb b px row).2 = true ↔ ∃ qx, pixel fb qx row = true ∧ rowCovers b px qx = true := by
  unfold blitRow
  dsimp only
  by_cases hs : px.val % 8 = 0
  · rw [if_pos hs, xorInto_hit_pixel]
    constructor
    · rintro ⟨qx, h0, h1, h2⟩
      exact ⟨qx, h1, by rw [← shiftRight_covers b px qx h0]; exact h2⟩
    · rintro ⟨qx, h1, h2⟩
      have h0 : qx.val / 8 = px.val / 8 := by have := rowCovers_columns h2; omega
      exact ⟨qx, h0, h1, by rw [shiftRight_covers b px qx h0]; exact h2⟩
  · rw [if_neg hs, Bool.or_eq_true, xorInto_hit_pixel, xorInto_hit_pixel]
    constructor
    · rintro (⟨qx, h0, h1, h2⟩ | ⟨qx, h0, h1, h2⟩)
      · exact ⟨qx, h1, by rw [← shiftRight_covers b px qx h0]; exact h2⟩
      · simp only at h0
        have hne : ¬ qx.val / 8 = px.val / 8 := by omega
        rw [pixel_xorInto] at h1
        simp only [hne, and_false, decide_false, Bool.false_and, Bool.xor_false] at h1
        exact ⟨qx, h1, by rw [← shiftLeft_covers b px qx h0]; exact h2⟩
    · rintro ⟨qx, h1, h2⟩
      rcases rowCovers_columns h2 with h0 | ⟨_, h0⟩
      · exact .inl ⟨qx, h0, h1, by rw [shiftRight_covers b px qx h0]; exact h2⟩
      · have hne : ¬ qx.val / 8 = px.val / 8 := by omega
        refine .inr ⟨qx, h0, ?_, by rw [shiftLeft_covers b px qx h0]; exact h2⟩
        rw [pixel_xorInto]
        simp only [hne, and_false, decide_false, Bool.false_and, Bool.xor_false]; exact h1

/-! ### A sprite's rows -/

/-- A sprite whose rows are inside memory is drawn to its end. -/
theorem drawRows_ok {m : Memory} {base : Nat} {vx vy : Byte} (rs : List Nat) (fb : Framebuffer) (hit : Bool)
    (h : ∀ r ∈ rs, base + r < 4096) : ∃ q, drawRows m base vx vy rs fb hit = .ok q := by
  induction rs generalizing fb hit with
  | nil => exact ⟨_, rfl⟩
  | cons r rs ih =>
    simp only [drawRows, memRead_ok (m := m) (a := base + r) (h r (by simp))]
    exact ih _ _ fun r hr => h r (by simp [hr])

/-- One row inside memory, and then the others. -/
theorem drawRows_cons {m : Memory} {base : Nat} {vx vy : Byte} {r : Nat} (rs : List Nat) (fb : Framebuffer)
    (hit : Bool) (h : base + r < 4096) :
    drawRows m base vx vy (r :: rs) fb hit =
      drawRows m base vx vy rs (blitRow fb (Memory.read m (base + r)) (drawColumn vx) (drawRow vy r)).1
        ((blitRow fb (Memory.read m (base + r)) (drawColumn vx) (drawRow vy r)).2 || hit) := by
  simp only [drawRows, memRead_ok (m := m) (a := base + r) h]

/-- A sprite that leaves memory reports the first failing address. -/
theorem drawRows_error {m : Memory} {base : Nat} {vx vy : Byte} (k n : Nat) (fb : Framebuffer) (hit : Bool)
    (h0 : 0 < n) (h : 4096 < base + k + n) (hk : k = 0 ∨ base + k ≤ 4096) :
    drawRows m base vx vy (List.range' k n) fb hit = .error (.memoryOutOfBounds (max base 4096)) := by
  induction n generalizing k fb hit with
  | zero => omega
  | succ n ih =>
    rw [List.range'_succ]
    by_cases hb : base + k < 4096
    · simp only [drawRows, memRead_ok (m := m) (a := base + k) hb]
      exact ih (k + 1) _ _ (by omega) (by omega) (.inr (by omega))
    · simp only [drawRows, memRead_error (m := m) (a := base + k) (Nat.not_lt.mp hb)]
      congr 2; omega

end Sys2Proof.Machine
end

