-- ==== Sys2Proof/Laws/State.lean ====
section
/-! SUPPORT. What each named update of the state does to each field, so that no proof unfolds a record update;
and the register file: what a register reads after a write. -/

namespace Sys2Proof.Machine

section
variable (s : State)

/-! ### writeV -/

@[simp] theorem State.writeV_mem (x : Nibble) (b : Byte) : (s.writeV x b).mem = s.mem := rfl
@[simp] theorem State.writeV_i (x : Nibble) (b : Byte) : (s.writeV x b).i = s.i := rfl
@[simp] theorem State.writeV_pc (x : Nibble) (b : Byte) : (s.writeV x b).pc = s.pc := rfl
@[simp] theorem State.writeV_stack (x : Nibble) (b : Byte) : (s.writeV x b).stack = s.stack := rfl
@[simp] theorem State.writeV_sp (x : Nibble) (b : Byte) : (s.writeV x b).sp = s.sp := rfl
@[simp] theorem State.writeV_dt (x : Nibble) (b : Byte) : (s.writeV x b).dt = s.dt := rfl
@[simp] theorem State.writeV_st (x : Nibble) (b : Byte) : (s.writeV x b).st = s.st := rfl
@[simp] theorem State.writeV_keys (x : Nibble) (b : Byte) : (s.writeV x b).keys = s.keys := rfl
@[simp] theorem State.writeV_fb (x : Nibble) (b : Byte) : (s.writeV x b).fb = s.fb := rfl
@[simp] theorem State.writeV_tone (x : Nibble) (b : Byte) : (s.writeV x b).tone = s.tone := rfl
@[simp] theorem State.writeV_budget (x : Nibble) (b : Byte) : (s.writeV x b).budget = s.budget := rfl
@[simp] theorem State.writeV_rng (x : Nibble) (b : Byte) : (s.writeV x b).rng = s.rng := rfl
@[simp] theorem State.writeV_status (x : Nibble) (b : Byte) : (s.writeV x b).status = s.status := rfl
@[simp] theorem State.writeV_phase (x : Nibble) (b : Byte) : (s.writeV x b).phase = s.phase := rfl
@[simp] theorem State.writeV_params (x : Nibble) (b : Byte) : (s.writeV x b).params = s.params := rfl
@[simp] theorem State.writeV_requests (x : Nibble) (b : Byte) : (s.writeV x b).requests = s.requests := rfl
@[simp] theorem State.writeV_reply (x : Nibble) (b : Byte) : (s.writeV x b).reply = s.reply := rfl

/-! ### writeVFlag -/

@[simp] theorem State.writeVFlag_mem (x : Nibble) (r f : Byte) : (s.writeVFlag x r f).mem = s.mem := rfl
@[simp] theorem State.writeVFlag_i (x : Nibble) (r f : Byte) : (s.writeVFlag x r f).i = s.i := rfl
@[simp] theorem State.writeVFlag_pc (x : Nibble) (r f : Byte) : (s.writeVFlag x r f).pc = s.pc := rfl
@[simp] theorem State.writeVFlag_stack (x : Nibble) (r f : Byte) : (s.writeVFlag x r f).stack = s.stack := rfl
@[simp] theorem State.writeVFlag_sp (x : Nibble) (r f : Byte) : (s.writeVFlag x r f).sp = s.sp := rfl
@[simp] theorem State.writeVFlag_dt (x : Nibble) (r f : Byte) : (s.writeVFlag x r f).dt = s.dt := rfl
@[simp] theorem State.writeVFlag_st (x : Nibble) (r f : Byte) : (s.writeVFlag x r f).st = s.st := rfl
@[simp] theorem State.writeVFlag_keys (x : Nibble) (r f : Byte) : (s.writeVFlag x r f).keys = s.keys := rfl
@[simp] theorem State.writeVFlag_fb (x : Nibble) (r f : Byte) : (s.writeVFlag x r f).fb = s.fb := rfl
@[simp] theorem State.writeVFlag_tone (x : Nibble) (r f : Byte) : (s.writeVFlag x r f).tone = s.tone := rfl
@[simp] theorem State.writeVFlag_budget (x : Nibble) (r f : Byte) : (s.writeVFlag x r f).budget = s.budget := rfl
@[simp] theorem State.writeVFlag_rng (x : Nibble) (r f : Byte) : (s.writeVFlag x r f).rng = s.rng := rfl
@[simp] theorem State.writeVFlag_status (x : Nibble) (r f : Byte) : (s.writeVFlag x r f).status = s.status := rfl
@[simp] theorem State.writeVFlag_phase (x : Nibble) (r f : Byte) : (s.writeVFlag x r f).phase = s.phase := rfl
@[simp] theorem State.writeVFlag_params (x : Nibble) (r f : Byte) : (s.writeVFlag x r f).params = s.params := rfl
@[simp] theorem State.writeVFlag_requests (x : Nibble) (r f : Byte) : (s.writeVFlag x r f).requests = s.requests := rfl
@[simp] theorem State.writeVFlag_reply (x : Nibble) (r f : Byte) : (s.writeVFlag x r f).reply = s.reply := rfl

/-! ### setI -/

@[simp] theorem State.setI_mem (w : Word) : (s.setI w).mem = s.mem := rfl
@[simp] theorem State.setI_v (w : Word) : (s.setI w).v = s.v := rfl
@[simp] theorem State.setI_i (w : Word) : (s.setI w).i = w := rfl
@[simp] theorem State.setI_pc (w : Word) : (s.setI w).pc = s.pc := rfl
@[simp] theorem State.setI_stack (w : Word) : (s.setI w).stack = s.stack := rfl
@[simp] theorem State.setI_sp (w : Word) : (s.setI w).sp = s.sp := rfl
@[simp] theorem State.setI_dt (w : Word) : (s.setI w).dt = s.dt := rfl
@[simp] theorem State.setI_st (w : Word) : (s.setI w).st = s.st := rfl
@[simp] theorem State.setI_keys (w : Word) : (s.setI w).keys = s.keys := rfl
@[simp] theorem State.setI_fb (w : Word) : (s.setI w).fb = s.fb := rfl
@[simp] theorem State.setI_tone (w : Word) : (s.setI w).tone = s.tone := rfl
@[simp] theorem State.setI_budget (w : Word) : (s.setI w).budget = s.budget := rfl
@[simp] theorem State.setI_rng (w : Word) : (s.setI w).rng = s.rng := rfl
@[simp] theorem State.setI_status (w : Word) : (s.setI w).status = s.status := rfl
@[simp] theorem State.setI_phase (w : Word) : (s.setI w).phase = s.phase := rfl
@[simp] theorem State.setI_params (w : Word) : (s.setI w).params = s.params := rfl
@[simp] theorem State.setI_requests (w : Word) : (s.setI w).requests = s.requests := rfl
@[simp] theorem State.setI_reply (w : Word) : (s.setI w).reply = s.reply := rfl
@[simp] theorem State.setI_readV (w : Word) (y : Nibble) : (s.setI w).readV y = s.readV y := rfl

/-! ### setDt -/

@[simp] theorem State.setDt_mem (b : Byte) : (s.setDt b).mem = s.mem := rfl
@[simp] theorem State.setDt_v (b : Byte) : (s.setDt b).v = s.v := rfl
@[simp] theorem State.setDt_i (b : Byte) : (s.setDt b).i = s.i := rfl
@[simp] theorem State.setDt_pc (b : Byte) : (s.setDt b).pc = s.pc := rfl
@[simp] theorem State.setDt_stack (b : Byte) : (s.setDt b).stack = s.stack := rfl
@[simp] theorem State.setDt_sp (b : Byte) : (s.setDt b).sp = s.sp := rfl
@[simp] theorem State.setDt_dt (b : Byte) : (s.setDt b).dt = b := rfl
@[simp] theorem State.setDt_st (b : Byte) : (s.setDt b).st = s.st := rfl
@[simp] theorem State.setDt_keys (b : Byte) : (s.setDt b).keys = s.keys := rfl
@[simp] theorem State.setDt_fb (b : Byte) : (s.setDt b).fb = s.fb := rfl
@[simp] theorem State.setDt_tone (b : Byte) : (s.setDt b).tone = s.tone := rfl
@[simp] theorem State.setDt_budget (b : Byte) : (s.setDt b).budget = s.budget := rfl
@[simp] theorem State.setDt_rng (b : Byte) : (s.setDt b).rng = s.rng := rfl
@[simp] theorem State.setDt_status (b : Byte) : (s.setDt b).status = s.status := rfl
@[simp] theorem State.setDt_phase (b : Byte) : (s.setDt b).phase = s.phase := rfl
@[simp] theorem State.setDt_params (b : Byte) : (s.setDt b).params = s.params := rfl
@[simp] theorem State.setDt_requests (b : Byte) : (s.setDt b).requests = s.requests := rfl
@[simp] theorem State.setDt_reply (b : Byte) : (s.setDt b).reply = s.reply := rfl
@[simp] theorem State.setDt_readV (b : Byte) (y : Nibble) : (s.setDt b).readV y = s.readV y := rfl

/-! ### setSt -/

@[simp] theorem State.setSt_mem (b : Byte) : (s.setSt b).mem = s.mem := rfl
@[simp] theorem State.setSt_v (b : Byte) : (s.setSt b).v = s.v := rfl
@[simp] theorem State.setSt_i (b : Byte) : (s.setSt b).i = s.i := rfl
@[simp] theorem State.setSt_pc (b : Byte) : (s.setSt b).pc = s.pc := rfl
@[simp] theorem State.setSt_stack (b : Byte) : (s.setSt b).stack = s.stack := rfl
@[simp] theorem State.setSt_sp (b : Byte) : (s.setSt b).sp = s.sp := rfl
@[simp] theorem State.setSt_dt (b : Byte) : (s.setSt b).dt = s.dt := rfl
@[simp] theorem State.setSt_st (b : Byte) : (s.setSt b).st = b := rfl
@[simp] theorem State.setSt_keys (b : Byte) : (s.setSt b).keys = s.keys := rfl
@[simp] theorem State.setSt_fb (b : Byte) : (s.setSt b).fb = s.fb := rfl
@[simp] theorem State.setSt_tone (b : Byte) : (s.setSt b).tone = s.tone := rfl
@[simp] theorem State.setSt_budget (b : Byte) : (s.setSt b).budget = s.budget := rfl
@[simp] theorem State.setSt_rng (b : Byte) : (s.setSt b).rng = s.rng := rfl
@[simp] theorem State.setSt_status (b : Byte) : (s.setSt b).status = s.status := rfl
@[simp] theorem State.setSt_phase (b : Byte) : (s.setSt b).phase = s.phase := rfl
@[simp] theorem State.setSt_params (b : Byte) : (s.setSt b).params = s.params := rfl
@[simp] theorem State.setSt_requests (b : Byte) : (s.setSt b).requests = s.requests := rfl
@[simp] theorem State.setSt_reply (b : Byte) : (s.setSt b).reply = s.reply := rfl
@[simp] theorem State.setSt_readV (b : Byte) (y : Nibble) : (s.setSt b).readV y = s.readV y := rfl

/-! ### setMem -/

@[simp] theorem State.setMem_mem (m : Memory) : (s.setMem m).mem = m := rfl
@[simp] theorem State.setMem_v (m : Memory) : (s.setMem m).v = s.v := rfl
@[simp] theorem State.setMem_i (m : Memory) : (s.setMem m).i = s.i := rfl
@[simp] theorem State.setMem_pc (m : Memory) : (s.setMem m).pc = s.pc := rfl
@[simp] theorem State.setMem_stack (m : Memory) : (s.setMem m).stack = s.stack := rfl
@[simp] theorem State.setMem_sp (m : Memory) : (s.setMem m).sp = s.sp := rfl
@[simp] theorem State.setMem_dt (m : Memory) : (s.setMem m).dt = s.dt := rfl
@[simp] theorem State.setMem_st (m : Memory) : (s.setMem m).st = s.st := rfl
@[simp] theorem State.setMem_keys (m : Memory) : (s.setMem m).keys = s.keys := rfl
@[simp] theorem State.setMem_fb (m : Memory) : (s.setMem m).fb = s.fb := rfl
@[simp] theorem State.setMem_tone (m : Memory) : (s.setMem m).tone = s.tone := rfl
@[simp] theorem State.setMem_budget (m : Memory) : (s.setMem m).budget = s.budget := rfl
@[simp] theorem State.setMem_rng (m : Memory) : (s.setMem m).rng = s.rng := rfl
@[simp] theorem State.setMem_status (m : Memory) : (s.setMem m).status = s.status := rfl
@[simp] theorem State.setMem_phase (m : Memory) : (s.setMem m).phase = s.phase := rfl
@[simp] theorem State.setMem_params (m : Memory) : (s.setMem m).params = s.params := rfl
@[simp] theorem State.setMem_requests (m : Memory) : (s.setMem m).requests = s.requests := rfl
@[simp] theorem State.setMem_reply (m : Memory) : (s.setMem m).reply = s.reply := rfl
@[simp] theorem State.setMem_readV (m : Memory) (y : Nibble) : (s.setMem m).readV y = s.readV y := rfl

/-! ### setFb -/

@[simp] theorem State.setFb_mem (f : Framebuffer) : (s.setFb f).mem = s.mem := rfl
@[simp] theorem State.setFb_v (f : Framebuffer) : (s.setFb f).v = s.v := rfl
@[simp] theorem State.setFb_i (f : Framebuffer) : (s.setFb f).i = s.i := rfl
@[simp] theorem State.setFb_pc (f : Framebuffer) : (s.setFb f).pc = s.pc := rfl
@[simp] theorem State.setFb_stack (f : Framebuffer) : (s.setFb f).stack = s.stack := rfl
@[simp] theorem State.setFb_sp (f : Framebuffer) : (s.setFb f).sp = s.sp := rfl
@[simp] theorem State.setFb_dt (f : Framebuffer) : (s.setFb f).dt = s.dt := rfl
@[simp] theorem State.setFb_st (f : Framebuffer) : (s.setFb f).st = s.st := rfl
@[simp] theorem State.setFb_keys (f : Framebuffer) : (s.setFb f).keys = s.keys := rfl
@[simp] theorem State.setFb_fb (f : Framebuffer) : (s.setFb f).fb = f := rfl
@[simp] theorem State.setFb_tone (f : Framebuffer) : (s.setFb f).tone = s.tone := rfl
@[simp] theorem State.setFb_budget (f : Framebuffer) : (s.setFb f).budget = s.budget := rfl
@[simp] theorem State.setFb_rng (f : Framebuffer) : (s.setFb f).rng = s.rng := rfl
@[simp] theorem State.setFb_status (f : Framebuffer) : (s.setFb f).status = s.status := rfl
@[simp] theorem State.setFb_phase (f : Framebuffer) : (s.setFb f).phase = s.phase := rfl
@[simp] theorem State.setFb_params (f : Framebuffer) : (s.setFb f).params = s.params := rfl
@[simp] theorem State.setFb_requests (f : Framebuffer) : (s.setFb f).requests = s.requests := rfl
@[simp] theorem State.setFb_reply (f : Framebuffer) : (s.setFb f).reply = s.reply := rfl
@[simp] theorem State.setFb_readV (f : Framebuffer) (y : Nibble) : (s.setFb f).readV y = s.readV y := rfl

/-! ### setRng -/

@[simp] theorem State.setRng_mem (r : RngState) : (s.setRng r).mem = s.mem := rfl
@[simp] theorem State.setRng_v (r : RngState) : (s.setRng r).v = s.v := rfl
@[simp] theorem State.setRng_i (r : RngState) : (s.setRng r).i = s.i := rfl
@[simp] theorem State.setRng_pc (r : RngState) : (s.setRng r).pc = s.pc := rfl
@[simp] theorem State.setRng_stack (r : RngState) : (s.setRng r).stack = s.stack := rfl
@[simp] theorem State.setRng_sp (r : RngState) : (s.setRng r).sp = s.sp := rfl
@[simp] theorem State.setRng_dt (r : RngState) : (s.setRng r).dt = s.dt := rfl
@[simp] theorem State.setRng_st (r : RngState) : (s.setRng r).st = s.st := rfl
@[simp] theorem State.setRng_keys (r : RngState) : (s.setRng r).keys = s.keys := rfl
@[simp] theorem State.setRng_fb (r : RngState) : (s.setRng r).fb = s.fb := rfl
@[simp] theorem State.setRng_tone (r : RngState) : (s.setRng r).tone = s.tone := rfl
@[simp] theorem State.setRng_budget (r : RngState) : (s.setRng r).budget = s.budget := rfl
@[simp] theorem State.setRng_rng (r : RngState) : (s.setRng r).rng = r := rfl
@[simp] theorem State.setRng_status (r : RngState) : (s.setRng r).status = s.status := rfl
@[simp] theorem State.setRng_phase (r : RngState) : (s.setRng r).phase = s.phase := rfl
@[simp] theorem State.setRng_params (r : RngState) : (s.setRng r).params = s.params := rfl
@[simp] theorem State.setRng_requests (r : RngState) : (s.setRng r).requests = s.requests := rfl
@[simp] theorem State.setRng_reply (r : RngState) : (s.setRng r).reply = s.reply := rfl
@[simp] theorem State.setRng_readV (r : RngState) (y : Nibble) : (s.setRng r).readV y = s.readV y := rfl

/-! ### setPc -/

@[simp] theorem State.setPc_mem (w : Word) : (s.setPc w).mem = s.mem := rfl
@[simp] theorem State.setPc_v (w : Word) : (s.setPc w).v = s.v := rfl
@[simp] theorem State.setPc_i (w : Word) : (s.setPc w).i = s.i := rfl
@[simp] theorem State.setPc_pc (w : Word) : (s.setPc w).pc = w := rfl
@[simp] theorem State.setPc_stack (w : Word) : (s.setPc w).stack = s.stack := rfl
@[simp] theorem State.setPc_sp (w : Word) : (s.setPc w).sp = s.sp := rfl
@[simp] theorem State.setPc_dt (w : Word) : (s.setPc w).dt = s.dt := rfl
@[simp] theorem State.setPc_st (w : Word) : (s.setPc w).st = s.st := rfl
@[simp] theorem State.setPc_keys (w : Word) : (s.setPc w).keys = s.keys := rfl
@[simp] theorem State.setPc_fb (w : Word) : (s.setPc w).fb = s.fb := rfl
@[simp] theorem State.setPc_tone (w : Word) : (s.setPc w).tone = s.tone := rfl
@[simp] theorem State.setPc_budget (w : Word) : (s.setPc w).budget = s.budget := rfl
@[simp] theorem State.setPc_rng (w : Word) : (s.setPc w).rng = s.rng := rfl
@[simp] theorem State.setPc_status (w : Word) : (s.setPc w).status = s.status := rfl
@[simp] theorem State.setPc_phase (w : Word) : (s.setPc w).phase = s.phase := rfl
@[simp] theorem State.setPc_params (w : Word) : (s.setPc w).params = s.params := rfl
@[simp] theorem State.setPc_requests (w : Word) : (s.setPc w).requests = s.requests := rfl
@[simp] theorem State.setPc_reply (w : Word) : (s.setPc w).reply = s.reply := rfl
@[simp] theorem State.setPc_readV (w : Word) (y : Nibble) : (s.setPc w).readV y = s.readV y := rfl

/-! ### advance -/

@[simp] theorem State.advance_mem : (s.advance).mem = s.mem := rfl
@[simp] theorem State.advance_v : (s.advance).v = s.v := rfl
@[simp] theorem State.advance_i : (s.advance).i = s.i := rfl
@[simp] theorem State.advance_pc : (s.advance).pc = s.pc + 2 := rfl
@[simp] theorem State.advance_stack : (s.advance).stack = s.stack := rfl
@[simp] theorem State.advance_sp : (s.advance).sp = s.sp := rfl
@[simp] theorem State.advance_dt : (s.advance).dt = s.dt := rfl
@[simp] theorem State.advance_st : (s.advance).st = s.st := rfl
@[simp] theorem State.advance_keys : (s.advance).keys = s.keys := rfl
@[simp] theorem State.advance_fb : (s.advance).fb = s.fb := rfl
@[simp] theorem State.advance_tone : (s.advance).tone = s.tone := rfl
@[simp] theorem State.advance_budget : (s.advance).budget = s.budget := rfl
@[simp] theorem State.advance_rng : (s.advance).rng = s.rng := rfl
@[simp] theorem State.advance_status : (s.advance).status = s.status := rfl
@[simp] theorem State.advance_phase : (s.advance).phase = s.phase := rfl
@[simp] theorem State.advance_params : (s.advance).params = s.params := rfl
@[simp] theorem State.advance_requests : (s.advance).requests = s.requests := rfl
@[simp] theorem State.advance_reply : (s.advance).reply = s.reply := rfl
@[simp] theorem State.advance_readV (y : Nibble) : (s.advance).readV y = s.readV y := rfl

/-! ### skipIf -/

@[simp] theorem State.skipIf_mem (c : Bool) : (s.skipIf c).mem = s.mem := rfl
@[simp] theorem State.skipIf_v (c : Bool) : (s.skipIf c).v = s.v := rfl
@[simp] theorem State.skipIf_i (c : Bool) : (s.skipIf c).i = s.i := rfl
@[simp] theorem State.skipIf_pc (c : Bool) : (s.skipIf c).pc = if c then s.pc + 4 else s.pc + 2 := rfl
@[simp] theorem State.skipIf_stack (c : Bool) : (s.skipIf c).stack = s.stack := rfl
@[simp] theorem State.skipIf_sp (c : Bool) : (s.skipIf c).sp = s.sp := rfl
@[simp] theorem State.skipIf_dt (c : Bool) : (s.skipIf c).dt = s.dt := rfl
@[simp] theorem State.skipIf_st (c : Bool) : (s.skipIf c).st = s.st := rfl
@[simp] theorem State.skipIf_keys (c : Bool) : (s.skipIf c).keys = s.keys := rfl
@[simp] theorem State.skipIf_fb (c : Bool) : (s.skipIf c).fb = s.fb := rfl
@[simp] theorem State.skipIf_tone (c : Bool) : (s.skipIf c).tone = s.tone := rfl
@[simp] theorem State.skipIf_budget (c : Bool) : (s.skipIf c).budget = s.budget := rfl
@[simp] theorem State.skipIf_rng (c : Bool) : (s.skipIf c).rng = s.rng := rfl
@[simp] theorem State.skipIf_status (c : Bool) : (s.skipIf c).status = s.status := rfl
@[simp] theorem State.skipIf_phase (c : Bool) : (s.skipIf c).phase = s.phase := rfl
@[simp] theorem State.skipIf_params (c : Bool) : (s.skipIf c).params = s.params := rfl
@[simp] theorem State.skipIf_requests (c : Bool) : (s.skipIf c).requests = s.requests := rfl
@[simp] theorem State.skipIf_reply (c : Bool) : (s.skipIf c).reply = s.reply := rfl
@[simp] theorem State.skipIf_readV (c : Bool) (y : Nibble) : (s.skipIf c).readV y = s.readV y := rfl

/-! ### the phase update of an instruction step -/

@[simp] theorem State.withPhase_readV (p : Phase) (y : Nibble) :
    State.readV { s with phase := p } y = s.readV y := rfl

/-! ### raise -/

@[simp] theorem State.raise_status (e : FatalError) : (s.raise e).status = .faulted e := rfl
@[simp] theorem State.raise_phase (e : FatalError) : (s.raise e).phase = .idle := rfl
@[simp] theorem State.raise_params (e : FatalError) : (s.raise e).params = s.params := rfl
@[simp] theorem State.raise_requests (e : FatalError) : (s.raise e).requests = s.requests := rfl
@[simp] theorem State.raise_reply (e : FatalError) : (s.raise e).reply = some (.failed e) := rfl

/-- Taking a fatal error leaves the core Faulted, in Idle, with the error for the host. -/
theorem State.raise_raised (e : FatalError) : Raised (s.raise e) e := ⟨rfl, rfl, rfl⟩

/-! ### charge -/

theorem State.charge_running (op : Operation) (h : s.status = .running) :
    s.charge op =
      { s with budget := s.budget - (s.params.cost op : Int)
               phase := loopPhase (s.budget - (s.params.cost op : Int)) } := by
  simp [State.charge, h]

theorem State.charge_faulted (op : Operation) (e : FatalError) (h : s.status = .faulted e) :
    s.charge op = s := by
  simp [State.charge, h]

/-! ### the register file -/

/-- A register after one register is written. -/
@[simp] theorem State.writeV_readV (x y : Nibble) (b : Byte) :
    (s.writeV x b).readV y = if y = x then b else s.readV y := by
  simp only [State.readV, State.writeV, Vector.getElem_set]
  by_cases h : y = x
  · simp [h]
  · have : x.toNat ≠ y.toNat := fun e => h (BitVec.eq_of_toNat_eq e).symm
    simp [h, this]

/-- A register after a result and a flag are written: the flag wins where the destination is VF. -/
@[simp] theorem State.writeVFlag_readV (x y : Nibble) (r f : Byte) :
    (s.writeVFlag x r f).readV y = if y = 0xF#4 then f else if y = x then r else s.readV y := by
  simp [State.writeVFlag]

/-- Two register files that read the same are the same. -/
theorem v_eq_of_readV {s t : State} (h : ∀ x, t.readV x = s.readV x) : t.v = s.v := by
  apply Vector.ext
  intro k hk
  have := h (BitVec.ofNat 4 k)
  simpa [State.readV, Nat.mod_eq_of_lt hk] using this

end

end Sys2Proof.Machine
end

