-- ==== Sys2Proof/Laws/Operations.lean ====
section
/-! SUPPORT. One lemma for each shared operation that says everything it can do: the end of an operation, the
call stack, the block register write, the key scan, the exact arithmetic. -/

namespace Sys2Proof.Machine

/-! ### complete -/

@[simp] theorem complete_ok (s t : State) : complete s (.ok t) = .next t := rfl

@[simp] theorem complete_error (s : State) (e : FatalError) : complete s (.error e) = .next (s.raise e) := rfl

/-- The end of an operation always answers a next state: the operation's, or the fatal error taken. -/
theorem complete_next {s t : State} {r : Except FatalError State} (h : complete s r = .next t) :
    r = .ok t ∨ ∃ e, r = .error e ∧ t = s.raise e := by
  cases r with
  | ok u => cases h; exact .inl rfl
  | error e => cases h; exact .inr ⟨e, rfl, rfl⟩

/-! ### The call stack -/

/-- A push completes below 16 entries. -/
theorem State.pushReturn_ok (s : State) (h : s.sp.val < 16) :
    s.pushReturn = .ok { s with stack := s.stack.set s.sp.val (s.pc + 2) h, sp := ⟨s.sp.val + 1, by omega⟩ } := by
  simp [State.pushReturn, h]

/-- A push at 16 entries raises StackOverflow. -/
theorem State.pushReturn_error (s : State) (h : s.sp.val = 16) :
    s.pushReturn = .error (.stackOverflow s.pc) := by
  simp [State.pushReturn, h]

/-- A pop completes above 0 entries. -/
theorem State.popReturn_ok (s : State) (h : 0 < s.sp.val) :
    s.popReturn =
      .ok { s with sp := ⟨s.sp.val - 1, by omega⟩, pc := s.stack[s.sp.val - 1]'(by omega) } := by
  simp [State.popReturn, h]

/-- A pop at 0 entries raises StackUnderflow. -/
theorem State.popReturn_error (s : State) (h : s.sp.val = 0) :
    s.popReturn = .error (.stackUnderflow s.pc) := by
  simp [State.popReturn, h]

/-! ### The block register write -/

/-- The register update of one byte of a block load. -/
theorem State.readV_set (s : State) (k : Nat) (b : Byte) (h : k < 16) (y : Nibble) :
    State.readV { s with v := s.v.set k b h } y = if y.toNat = k then b else s.readV y := by
  simp only [State.readV, Vector.getElem_set]
  by_cases e : y.toNat = k
  · simp [e]
  · simp [e, Ne.symm e]

/-- A block write gives each register from V[x] on its byte, and leaves the others. -/
theorem State.writeVs_readV (bs : List Byte) (s : State) (x : Nat) (y : Nibble) :
    (s.writeVs x bs).readV y =
      if x ≤ y.toNat ∧ y.toNat < x + bs.length then bs.getD (y.toNat - x) 0 else s.readV y := by
  induction bs generalizing s x with
  | nil => simp [State.writeVs]
  | cons b bs ih =>
    rw [State.writeVs, ih, List.length_cons]
    have hy := y.isLt
    by_cases hxy : y.toNat = x
    · rw [if_neg (by omega), if_pos (by omega), dif_pos (by omega), State.readV_set, if_pos hxy]
      simp [hxy]
    · have hrest : State.readV (if h : x < 16 then { s with v := s.v.set x b h } else s) y = s.readV y := by
        split
        · rw [State.readV_set, if_neg hxy]
        · rfl
      by_cases hin : x + 1 ≤ y.toNat ∧ y.toNat < x + 1 + bs.length
      · rw [if_pos hin, if_pos (by omega)]
        obtain ⟨d, hd⟩ : ∃ d, y.toNat - x = d + 1 := ⟨y.toNat - x - 1, by omega⟩
        rw [hd, List.getD_cons_succ]
        congr 1; omega
      · rw [if_neg hin, if_neg (by omega), hrest]

/-- A block write touches the register file only. -/
theorem State.writeVs_eq (bs : List Byte) (s : State) (x : Nat) :
    s.writeVs x bs = { s with v := (s.writeVs x bs).v } := by
  induction bs generalizing s x with
  | nil => rfl
  | cons b bs ih =>
    rw [State.writeVs]
    split
    · rw [ih]
    · rw [ih]

/-- The registers a block store takes, in order. -/
theorem State.firstVs_length (s : State) (x : Nibble) : (s.firstVs x).length = x.toNat + 1 := by
  have := x.isLt
  simp [State.firstVs]; omega

theorem State.firstVs_getD (s : State) (x : Nibble) (k : Nat) (h : k ≤ x.toNat) :
    (s.firstVs x).getD k 0 = s.readV (BitVec.ofNat 4 k) := by
  have hx := x.isLt
  have hk : k < 16 := by omega
  have hk' : k < x.toNat + 1 := by omega
  have hm : k % 16 = k := Nat.mod_eq_of_lt hk
  simp [State.firstVs, State.readV, List.getD_eq_getElem?_getD, hk', hk, hm]

/-! ### Key numbers -/

/-- A key number of 0 to F reads its bit of KEYS, under every policy. -/
theorem keyDown_in_range {p : KeyRangePolicy} {keys : Word} {v : Byte} (h : v.toNat ≤ 0xF) :
    keyDown p keys v = .ok (keyBit keys v.toNat) := if_pos h

/-- Above F the policy fatal raises KeyIndexOutOfRange. -/
theorem keyDown_fatal {keys : Word} {v : Byte} (h : 0xF < v.toNat) :
    keyDown .fatal keys v = .error (.keyIndexOutOfRange v) := if_neg (by omega)

/-- Above F the policy mask4 takes the low nibble. -/
theorem keyDown_mask4 {keys : Word} {v : Byte} (h : 0xF < v.toNat) :
    keyDown .mask4 keys v = .ok (keyBit keys (v &&& 0xF).toNat) := if_neg (by omega)

/-- Above F the policy not_pressed reads as up. -/
theorem keyDown_notPressed {keys : Word} {v : Byte} (h : 0xF < v.toNat) :
    keyDown .notPressed keys v = .ok false := if_neg (by omega)

/-! ### The key scan -/

/-- The scan finds a key exactly when it is down and no lower one is. -/
theorem firstKeyDown_some {keys : Word} {k : Nat} :
    firstKeyDown keys = some k ↔ k < 16 ∧ keyBit keys k = true ∧ ∀ j, j < k → keyBit keys j = false := by
  unfold firstKeyDown
  constructor
  · intro h
    have hk := List.find?_some h
    have hm := List.mem_of_find?_eq_some h
    have hlt : k < 16 := List.mem_range.mp hm
    refine ⟨hlt, hk, fun j hj => ?_⟩
    rw [List.find?_range_eq_some] at h
    simpa using h.2.2 j hj
  · rintro ⟨h1, h2, h3⟩
    rw [List.find?_range_eq_some]
    exact ⟨h2, List.mem_range.mpr h1, fun j hj => by simp [h3 j hj]⟩

/-- The scan finds nothing exactly when no key is down. -/
theorem firstKeyDown_none {keys : Word} : firstKeyDown keys = none ↔ ∀ k, k < 16 → keyBit keys k = false := by
  simp [firstKeyDown]

/-! ### Exact arithmetic -/

theorem addResult_toNat (a b : Byte) : (addResult a b).toNat = (a.toNat + b.toNat) % 256 := by
  simp [addResult]

theorem subResult_toNat (a b : Byte) : (subResult a b).toNat = (256 + a.toNat - b.toNat) % 256 := by
  have := a.isLt
  have := b.isLt
  simp only [subResult, BitVec.toNat_ofInt]; omega

theorem shrResult_toNat (a : Byte) : (shrResult a).toNat = a.toNat / 2 := by
  simp [shrResult, Nat.shiftRight_eq_div_pow]

theorem shlResult_toNat (a : Byte) : (shlResult a).toNat = 2 * a.toNat % 256 := by
  simp [shlResult, Nat.shiftLeft_eq, Nat.mul_comm]

theorem shrBitOut_toNat (a : Byte) : (shrBitOut a).toNat = a.toNat % 2 := by
  simp [shrBitOut]

theorem shlBitOut_toNat (a : Byte) : (shlBitOut a).toNat = a.toNat / 128 := by
  have := a.isLt
  simp [shlBitOut, Nat.shiftRight_eq_div_pow]; omega

theorem zextAddr_toNat (nnn : Addr) : (zextAddr nnn).toNat = nnn.toNat := by
  have := nnn.isLt
  simp [zextAddr]; omega

theorem zextByte_toNat (b : Byte) : (zextByte b).toNat = b.toNat := by
  have := b.isLt
  simp [zextByte]; omega

/-- Every cost is at least 1 and at most COST(DRW) (48_frame_stepper.md R347). -/
theorem Params.cost_bounds (p : Params) (op : Operation) : 1 ≤ p.cost op ∧ p.cost op ≤ 22734 := by
  cases op <;> simp only [Params.cost] <;> omega

/-- Every cost but DRW's is below it (48_frame_stepper.md R347). -/
theorem Params.cost_lt_drw (p : Params) (op : Operation) (h : op ≠ .drw) : p.cost op < p.cost .drw := by
  cases op <;> simp only [Params.cost] <;> first | omega | exact absurd rfl h

end Sys2Proof.Machine
end

