-- ==== Sys2Proof/Laws/PerInstr.lean ====
section
/-! SUPPORT. The family TableRow, one lemma for each instruction: the word of an instruction matches its row of
spec/opcode_table.json, under the row's mask. -/

namespace Sys2Proof.Laws.TableRow

/-- The word of an instruction, under the mask of its row, is the row's match. -/
def Statement (i : Instr) : Prop := encode i &&& i.operation.tableMask = i.operation.tableMatch

theorem masked_nnn (op : Nibble) (nnn : Addr) : encNNN op nnn &&& 0xF000 = encNNN op 0 := by
  have h : (0xF000 : Word) = (0xF#4 ++ 0x000#12 : Word) := by decide
  have a : encNNN op nnn &&& (0xF#4 ++ 0x000#12 : Word) = (op &&& 0xF#4) ++ (nnn &&& 0x000#12) := BitVec.and_append
  rw [h, a, show op &&& 0xF#4 = op from BitVec.and_allOnes, BitVec.and_zero]; rfl

theorem masked_xkk (op x : Nibble) (kk : Byte) : encXKK op x kk &&& 0xF000 = encXKK op 0 0 := by
  have h : (0xF000 : Word) = (0xF#4 ++ 0x000#12 : Word) := by decide
  have a : encXKK op x kk &&& (0xF#4 ++ 0x000#12 : Word) = (op &&& 0xF#4) ++ ((x ++ kk) &&& 0x000#12) := BitVec.and_append
  rw [h, a, show op &&& 0xF#4 = op from BitVec.and_allOnes, BitVec.and_zero]; rfl

theorem masked_xf (op x : Nibble) (fn : Byte) : encXKK op x fn &&& 0xF0FF = encXKK op 0 fn := by
  have h : (0xF0FF : Word) = (0xF#4 ++ (0x0#4 ++ 0xFF#8) : Word) := by decide
  have a : encXKK op x fn &&& (0xF#4 ++ (0x0#4 ++ 0xFF#8) : Word) =
      (op &&& 0xF#4) ++ ((x ++ fn) &&& (0x0#4 ++ 0xFF#8)) := BitVec.and_append
  have b : (x ++ fn) &&& (0x0#4 ++ 0xFF#8) = (x &&& 0x0#4) ++ (fn &&& 0xFF#8) := BitVec.and_append
  rw [h, a, b, show op &&& 0xF#4 = op from BitVec.and_allOnes, BitVec.and_zero,
    show fn &&& 0xFF#8 = fn from BitVec.and_allOnes]; rfl

theorem masked_xyn (op x y n : Nibble) : encXYN op x y n &&& 0xF000 = encXYN op 0 0 0 := by
  have h : (0xF000 : Word) = (0xF#4 ++ 0x000#12 : Word) := by decide
  have a : encXYN op x y n &&& (0xF#4 ++ 0x000#12 : Word) =
      (op &&& 0xF#4) ++ ((x ++ (y ++ n)) &&& 0x000#12) := BitVec.and_append
  rw [h, a, show op &&& 0xF#4 = op from BitVec.and_allOnes, BitVec.and_zero]; rfl

theorem masked_xys (op x y sub : Nibble) : encXYN op x y sub &&& 0xF00F = encXYN op 0 0 sub := by
  have h : (0xF00F : Word) = (0xF#4 ++ (0x0#4 ++ (0x0#4 ++ 0xF#4)) : Word) := by decide
  have a : encXYN op x y sub &&& (0xF#4 ++ (0x0#4 ++ (0x0#4 ++ 0xF#4)) : Word) =
      (op &&& 0xF#4) ++ ((x ++ (y ++ sub)) &&& (0x0#4 ++ (0x0#4 ++ 0xF#4))) := BitVec.and_append
  have b : (x ++ (y ++ sub)) &&& (0x0#4 ++ (0x0#4 ++ 0xF#4)) =
      (x &&& 0x0#4) ++ ((y ++ sub) &&& (0x0#4 ++ 0xF#4)) := BitVec.and_append
  have c : (y ++ sub) &&& (0x0#4 ++ 0xF#4) = (y &&& 0x0#4) ++ (sub &&& 0xF#4) := BitVec.and_append
  rw [h, a, b, c, show op &&& 0xF#4 = op from BitVec.and_allOnes, BitVec.and_zero, BitVec.and_zero,
    show sub &&& 0xF#4 = sub from BitVec.and_allOnes]; rfl

theorem cls : Statement .cls := by unfold Statement; decide

theorem ret : Statement .ret := by unfold Statement; decide

theorem sys (nnn : Addr) : Statement (.sys nnn) :=
  (masked_nnn _ nnn).trans rfl

theorem jp (nnn : Addr) : Statement (.jp nnn) :=
  (masked_nnn _ nnn).trans rfl

theorem call (nnn : Addr) : Statement (.call nnn) :=
  (masked_nnn _ nnn).trans rfl

theorem seImm (x : Nibble) (kk : Byte) : Statement (.seImm x kk) :=
  (masked_xkk _ x kk).trans rfl

theorem sneImm (x : Nibble) (kk : Byte) : Statement (.sneImm x kk) :=
  (masked_xkk _ x kk).trans rfl

theorem seReg (x : Nibble) (y : Nibble) : Statement (.seReg x y) :=
  (masked_xys _ x y _).trans rfl

theorem ldImm (x : Nibble) (kk : Byte) : Statement (.ldImm x kk) :=
  (masked_xkk _ x kk).trans rfl

theorem addImm (x : Nibble) (kk : Byte) : Statement (.addImm x kk) :=
  (masked_xkk _ x kk).trans rfl

theorem ldReg (x : Nibble) (y : Nibble) : Statement (.ldReg x y) :=
  (masked_xys _ x y _).trans rfl

theorem orReg (x : Nibble) (y : Nibble) : Statement (.orReg x y) :=
  (masked_xys _ x y _).trans rfl

theorem andReg (x : Nibble) (y : Nibble) : Statement (.andReg x y) :=
  (masked_xys _ x y _).trans rfl

theorem xorReg (x : Nibble) (y : Nibble) : Statement (.xorReg x y) :=
  (masked_xys _ x y _).trans rfl

theorem addReg (x : Nibble) (y : Nibble) : Statement (.addReg x y) :=
  (masked_xys _ x y _).trans rfl

theorem subReg (x : Nibble) (y : Nibble) : Statement (.subReg x y) :=
  (masked_xys _ x y _).trans rfl

theorem shr (x : Nibble) (y : Nibble) : Statement (.shr x y) :=
  (masked_xys _ x y _).trans rfl

theorem subn (x : Nibble) (y : Nibble) : Statement (.subn x y) :=
  (masked_xys _ x y _).trans rfl

theorem shl (x : Nibble) (y : Nibble) : Statement (.shl x y) :=
  (masked_xys _ x y _).trans rfl

theorem sneReg (x : Nibble) (y : Nibble) : Statement (.sneReg x y) :=
  (masked_xys _ x y _).trans rfl

theorem ldI (nnn : Addr) : Statement (.ldI nnn) :=
  (masked_nnn _ nnn).trans rfl

theorem jpV0 (nnn : Addr) : Statement (.jpV0 nnn) :=
  (masked_nnn _ nnn).trans rfl

theorem rnd (x : Nibble) (kk : Byte) : Statement (.rnd x kk) :=
  (masked_xkk _ x kk).trans rfl

theorem drw (x : Nibble) (y : Nibble) (n : Nibble) : Statement (.drw x y n) :=
  (masked_xyn _ x y n).trans rfl

theorem skp (x : Nibble) : Statement (.skp x) :=
  (masked_xf _ x _).trans rfl

theorem sknp (x : Nibble) : Statement (.sknp x) :=
  (masked_xf _ x _).trans rfl

theorem ldVxDt (x : Nibble) : Statement (.ldVxDt x) :=
  (masked_xf _ x _).trans rfl

theorem ldVxK (x : Nibble) : Statement (.ldVxK x) :=
  (masked_xf _ x _).trans rfl

theorem ldDtVx (x : Nibble) : Statement (.ldDtVx x) :=
  (masked_xf _ x _).trans rfl

theorem ldStVx (x : Nibble) : Statement (.ldStVx x) :=
  (masked_xf _ x _).trans rfl

theorem addI (x : Nibble) : Statement (.addI x) :=
  (masked_xf _ x _).trans rfl

theorem ldF (x : Nibble) : Statement (.ldF x) :=
  (masked_xf _ x _).trans rfl

theorem ldB (x : Nibble) : Statement (.ldB x) :=
  (masked_xf _ x _).trans rfl

theorem ldMemVx (x : Nibble) : Statement (.ldMemVx x) :=
  (masked_xf _ x _).trans rfl

theorem ldVxMem (x : Nibble) : Statement (.ldVxMem x) :=
  (masked_xf _ x _).trans rfl

end Sys2Proof.Laws.TableRow
end

