-- ==== Sys2Proof/Laws/Stepper.lean ====
section
/-! SUPPORT. The frame stepper and the host port: what a fetch, a countdown, a charge and a step in each phase do. -/

namespace Sys2Proof.Machine

/-! ### Fetch, countdown, loop condition -/

/-- A fetch inside memory gives the big-endian word. -/
theorem State.fetch_ok {s : State} (h : s.pc.toNat + 1 < 4096) :
    s.fetch = .ok (wordOfBytes (Memory.read s.mem s.pc.toNat) (Memory.read s.mem (s.pc.toNat + 1))) :=
  if_neg (by simp only [Config.memSize]; omega)

/-- A fetch that would read past memory raises ProgramCounterOutOfBounds. -/
theorem State.fetch_error {s : State} (h : 4096 ≤ s.pc.toNat + 1) :
    s.fetch = .error (.programCounterOutOfBounds s.pc) :=
  if_pos h

theorem countDown_toNat (b : Byte) : (countDown b).toNat = b.toNat - 1 := by
  have hb := b.isLt
  have hz : (0 : Byte).toNat = 0 := rfl
  have h1 : (1 : Byte).toNat = 1 := rfl
  unfold countDown
  split
  · rename_i h
    have hp := BitVec.lt_def.mp h
    rw [BitVec.toNat_sub]; omega
  · rename_i h
    have hp : ¬ (0 : Byte).toNat < b.toNat := fun e => h (BitVec.lt_def.mpr e)
    omega

theorem loopPhase_pos {b : Int} (h : 0 < b) : loopPhase b = .fetching := if_pos h

theorem loopPhase_nonpos {b : Int} (h : b ≤ 0) : loopPhase b = .frameComplete := if_neg (by omega)

/-! ### One step, phase by phase -/

theorem step_idle {s : State} (h : s.phase = .idle) : step s = hostTurn s := by simp [step, h]

theorem step_fetching {s : State} (h : s.phase = .fetching) (hs : s.status = .running) :
    step s = frameLoop s := by simp [step, h, hs]

theorem step_executing {s : State} (h : s.phase = .executing) (hs : s.status = .running) :
    step s = instructionStep s := by simp [step, h, hs]

theorem step_frameComplete {s : State} (h : s.phase = .frameComplete) (hs : s.status = .running) :
    step s = .next s.endFrame := by simp [step, h, hs]

/-- A Faulted core outside Idle, which no run reaches, has no transition. -/
theorem step_faulted {s : State} {e : FatalError} (h : s.phase ≠ .idle) (hs : s.status = .faulted e) :
    step s = .fault (.coreFaulted e) := by
  cases hp : s.phase <;> simp_all [step]

/-- The loop with a budget above 0 runs one instruction step. -/
theorem frameLoop_pos {s : State} (h : 0 < s.budget) : frameLoop s = instructionStep s := if_pos h

/-- The loop with no budget left completes the frame. -/
theorem frameLoop_nonpos {s : State} (h : s.budget ≤ 0) : frameLoop s = .next { s with phase := .frameComplete } :=
  if_neg (by omega)

/-- Everything an instruction step can do, if it answers a next state: it raises the fetch error, it raises the decode
error, or it runs the decoded instruction and charges it. -/
theorem instructionStep_next {s t : State} (h : instructionStep s = .next t) :
    (4096 ≤ s.pc.toNat + 1 ∧ t = s.raise (.programCounterOutOfBounds s.pc)) ∨
    (∃ w, s.pc.toNat + 1 < 4096 ∧ decode (wordOfBytes (Memory.read s.mem s.pc.toNat)
        (Memory.read s.mem (s.pc.toNat + 1))) = .invalidOpcode w ∧ t = s.raise (.invalidOpcode w)) ∨
    (∃ i u, s.pc.toNat + 1 < 4096 ∧ decode (wordOfBytes (Memory.read s.mem s.pc.toNat)
        (Memory.read s.mem (s.pc.toNat + 1))) = .instr i ∧ exec i { s with phase := .executing } = .next u ∧
        t = u.charge i.operation) := by
  unfold instructionStep at h
  by_cases hp : 4096 ≤ s.pc.toNat + 1
  · rw [State.fetch_error hp] at h
    cases h; exact .inl ⟨hp, rfl⟩
  · have hp' : s.pc.toNat + 1 < 4096 := by omega
    rw [State.fetch_ok hp'] at h
    dsimp only at h
    split at h
    · rename_i w hd; cases h; exact .inr (.inl ⟨w, hp', hd, rfl⟩)
    · rename_i i hd
      split at h
      · rename_i u hu; cases h; exact .inr (.inr ⟨i, u, hp', hd, hu, rfl⟩)
      · cases h
      · cases h

/-- Everything the core can do in Idle, if it answers a next state. -/
theorem hostTurn_next {s t : State} (h : hostTurn s = .next t) :
    (s.requests = [] ∧ t = s) ∨
    (∃ seed later, s.requests = .construct seed :: later ∧ t = State.construct s.params seed later) ∨
    (∃ later, s.requests = .readFramebuffer :: later ∧ t = ({ s with requests := later } : State).readFramebuffer) ∨
    (∃ bytes later, s.status = .running ∧ s.requests = .loadProgram bytes :: later ∧
      t = ({ s with requests := later } : State).loadProgram bytes) ∨
    (∃ keys later, s.status = .running ∧ s.requests = .stepFrame keys :: later ∧
      t = ({ s with requests := later } : State).beginFrame keys) := by
  unfold hostTurn at h
  split at h
  · rename_i hr; cases h; exact .inl ⟨hr, rfl⟩
  · rename_i request later hr
    dsimp only at h
    split at h
    · cases h; exact .inr (.inl ⟨_, _, hr, rfl⟩)
    · cases h; exact .inr (.inr (.inl ⟨_, hr, rfl⟩))
    · rename_i hs; cases h; exact .inr (.inr (.inr (.inl ⟨_, _, hs, hr, rfl⟩)))
    · rename_i hs; cases h; exact .inr (.inr (.inr (.inr ⟨_, _, hs, hr, rfl⟩)))
    · cases h
    · cases h

/-- LoadProgram of a sequence that fits. -/
theorem State.loadProgram_fits {s : State} {bytes : List Byte} (h : bytes.length ≤ 3584) :
    ∃ m, s.loadProgram bytes = { s with mem := m, reply := some .loaded } ∧
      (Memory.wf s.mem = true → Memory.wf m = true) ∧
      ∀ a, Memory.read m a =
        if 0x200 ≤ a ∧ a < 0x200 + bytes.length then bytes.getD (a - 0x200) 0 else Memory.read s.mem a := by
  obtain ⟨m, h1, h2, h3⟩ := storeBytes_ok bytes s.mem Config.loadAddr (by simp only [Config.loadAddr, Config.memSize]; omega)
  refine ⟨m, ?_, h2, h3⟩
  unfold State.loadProgram
  rw [if_neg (by simp only [Config.memSize, Config.loadAddr]; omega), h1]

/-- LoadProgram of a sequence that is too long. -/
theorem State.loadProgram_too_large {s : State} {bytes : List Byte} (h : 3584 < bytes.length) :
    s.loadProgram bytes = { s with reply := some (.programTooLarge bytes.length) } := by
  unfold State.loadProgram
  rw [if_pos (by simp only [Config.memSize, Config.loadAddr]; omega)]

end Sys2Proof.Machine
end

