-- ==== Sys2Proof/Tests/Slice0.lean ====
section
/-! SUPPORT. The model's own tests. The expected results come from spec/95_test_vectors.md, whose row each test names,
or from the encoding tables of spec/30_encoding.md; and for every obligation with hypotheses a witness that meets them. -/

namespace Sys2Proof.Tests

open Sys2Proof Sys2Proof.Machine

/-! ### Helpers -/

/-- Register x of a state, and its flag register and pc, as a test compares them. -/
def vfPc (x : Nibble) (t : State) : Byte × Byte × Word := (t.readV x, t.readV 0xF#4, t.pc)

/-- The reset state with pc 0x200, as 95_test_vectors.md starts, and the registers of the list written. -/
def regs (l : List (Nibble × Byte)) : State := l.foldl (fun s p => s.writeV p.1 p.2) State.reset

/-- The state after the instruction the word decodes to. -/
def after (w : Word) (s : State) : Option State :=
  match decode w with
  | .invalidOpcode _ => none
  | .instr i =>
    match exec i s with
    | .next t => some t
    | .fault _ => none
    | .refused _ => none

/-- The state after one step. -/
def stepped (s : State) : Option State :=
  match step s with
  | .next t => some t
  | .fault _ => none
  | .refused _ => none

/-- A word placed where the next step fetches it, inside a frame with the default parameters and every open cost 1000. -/
def framed (w : Word) (s : State) : State :=
  ({ s with
    params := { glyphIndexMode := .mask4, keyRangePolicy := .fatal, costs := thousand } } : State).withFetchWord 16 w.toNat
where
  /-- Every open cost 1000 microseconds. -/
  thousand : CostTable :=
    ⟨999, 999, 999, 999, 999, 999, 999, 999, 999, 999, 999, 999, 999, 999, 999, 999, 999, 999, 999, 999, 999, 999,
      999, 999, 999, 999, 999, 999, 999, 999, 999, 999, 999⟩

/-- The reset state with I and bytes written at ascending addresses from I. -/
def sprite (i : Word) (bytes : List Byte) (l : List (Nibble × Byte)) : State :=
  match storeBytes [] i.toNat bytes with
  | .ok m => ((regs l).setI i).setMem m
  | .error _ => (regs l).setI i

/-- The reset state with one framebuffer byte set. -/
def lit (b : Fin 256) (v : Byte) (s : State) : State := s.setFb (s.fb.set b.val v b.isLt)

/-- The reset state under another KEY_RANGE_POLICY, with KEYS and V0. -/
def keyed (p : KeyRangePolicy) (keys : Word) (v0 : Byte) : State :=
  let s := regs [(0x0#4, v0)]
  { s with keys := keys, params := { s.params with keyRangePolicy := p } }

theorem exists_exec {i : Instr} {s : State} {p : State → Bool}
    (h : (match exec i s with | .next t => p t | .fault _ => false | .refused _ => false) = true) :
    ∃ t, exec i s = .next t ∧ p t = true := by
  split at h
  · exact ⟨_, ‹_›, h⟩
  · cases h
  · cases h

theorem exists_step {s : State} {p : State → Bool}
    (h : (match step s with | .next t => p t | .fault _ => false | .refused _ => false) = true) :
    ∃ t, step s = .next t ∧ p t = true := by
  split at h
  · exact ⟨_, ‹_›, h⟩
  · cases h
  · cases h

/-! ### Well-formedness (30_encoding.md R107, R119) -/

theorem test_wellFormed_refuses_cls_word : WellFormed (.sys 0x0E0) = false := by decide
theorem test_wellFormed_refuses_ret_word : WellFormed (.sys 0x0EE) = false := by decide
theorem test_wellFormed_accepts_neighbours :
    WellFormed (.sys 0x0E1) = true ∧ WellFormed (.sys 0xEE0) = true ∧ WellFormed (.sys 0) = true := by decide

/-! ### Decoding a word of every instruction, written out from the patterns of 30_encoding.md R117 -/

theorem test_decode_cls : decode 0b0000000011100000 = .instr .cls := by decide
theorem test_decode_ret : decode 0b0000000011101110 = .instr .ret := by decide
theorem test_decode_sys : decode 0b0000111011100000 = .instr (.sys 0xEE0) := by decide
theorem test_decode_jp : decode 0b0001111111111111 = .instr (.jp 0xFFF) := by decide
theorem test_decode_call : decode 0b0010001100000001 = .instr (.call 0x301) := by decide
theorem test_decode_seImm : decode 0b0011010111000011 = .instr (.seImm 0x5 0xC3) := by decide
theorem test_decode_sneImm : decode 0b0100101000111100 = .instr (.sneImm 0xA 0x3C) := by decide
theorem test_decode_seReg : decode 0b0101000100100000 = .instr (.seReg 0x1 0x2) := by decide
theorem test_decode_ldImm : decode 0b0110111110101011 = .instr (.ldImm 0xF 0xAB) := by decide
theorem test_decode_addImm : decode 0b0111000111111111 = .instr (.addImm 0x1 0xFF) := by decide
theorem test_decode_ldReg : decode 0b1000110001010000 = .instr (.ldReg 0xC 0x5) := by decide
theorem test_decode_orReg : decode 0b1000000100100001 = .instr (.orReg 0x1 0x2) := by decide
theorem test_decode_andReg : decode 0b1000001100100010 = .instr (.andReg 0x3 0x2) := by decide
theorem test_decode_xorReg : decode 0b1000010000100011 = .instr (.xorReg 0x4 0x2) := by decide
theorem test_decode_addReg : decode 0b1000111100000100 = .instr (.addReg 0xF 0x0) := by decide
theorem test_decode_subReg : decode 0b1000000100100101 = .instr (.subReg 0x1 0x2) := by decide
theorem test_decode_shr : decode 0b1000000111110110 = .instr (.shr 0x1 0xF) := by decide
theorem test_decode_subn : decode 0b1000101010110111 = .instr (.subn 0xA 0xB) := by decide
theorem test_decode_shl : decode 0b1000101010111110 = .instr (.shl 0xA 0xB) := by decide
theorem test_decode_sneReg : decode 0b1001101010110000 = .instr (.sneReg 0xA 0xB) := by decide
theorem test_decode_ldI : decode 0b1010001100000001 = .instr (.ldI 0x301) := by decide
theorem test_decode_jpV0 : decode 0b1011000100100011 = .instr (.jpV0 0x123) := by decide
theorem test_decode_rnd : decode 0b1100001000001111 = .instr (.rnd 0x2 0x0F) := by decide
theorem test_decode_drw : decode 0b1101000100101111 = .instr (.drw 0x1 0x2 0xF) := by decide
theorem test_decode_skp : decode 0b1110010010011110 = .instr (.skp 0x4) := by decide
theorem test_decode_sknp : decode 0b1110010010100001 = .instr (.sknp 0x4) := by decide
theorem test_decode_ldVxDt : decode 0b1111001100000111 = .instr (.ldVxDt 0x3) := by decide
theorem test_decode_ldVxK : decode 0b1111001000001010 = .instr (.ldVxK 0x2) := by decide
theorem test_decode_ldDtVx : decode 0b1111000100010101 = .instr (.ldDtVx 0x1) := by decide
theorem test_decode_ldStVx : decode 0b1111000100011000 = .instr (.ldStVx 0x1) := by decide
theorem test_decode_addI : decode 0b1111001000011110 = .instr (.addI 0x2) := by decide
theorem test_decode_ldF : decode 0b1111000100101001 = .instr (.ldF 0x1) := by decide
theorem test_decode_ldB : decode 0b1111010100110011 = .instr (.ldB 0x5) := by decide
theorem test_decode_ldMemVx : decode 0b1111111101010101 = .instr (.ldMemVx 0xF) := by decide
theorem test_decode_ldVxMem : decode 0b1111111101100101 = .instr (.ldVxMem 0xF) := by decide

/-- DEC3, DEC5, DEC6: the words beside CLS and RET are SYS. -/
theorem test_decode_sys_neighbours :
    decode 0x00E1 = .instr (.sys 0x0E1) ∧ decode 0x00EF = .instr (.sys 0x0EF) ∧
      decode 0x00FF = .instr (.sys 0x0FF) ∧ decode 0x0000 = .instr (.sys 0) := by decide

/-- DEC10, DEC12 to DEC15, DEC21, DEC23, DEC24. -/
theorem test_decode_invalid :
    decode 0x5121 = .invalidOpcode 0x5121 ∧ decode 0x9AB7 = .invalidOpcode 0x9AB7 ∧
      decode 0x8008 = .invalidOpcode 0x8008 ∧ decode 0x800D = .invalidOpcode 0x800D ∧
      decode 0x800F = .invalidOpcode 0x800F ∧ decode 0xE09F = .invalidOpcode 0xE09F ∧
      decode 0xF000 = .invalidOpcode 0xF000 ∧ decode 0xF0FF = .invalidOpcode 0xF0FF := by decide

/-- The words of an encoder example, from the patterns of R117. -/
theorem test_encode :
    encode (.drw 0x1 0x2 0x5) = 0xD125 ∧ encode (.shl 0xA 0xB) = 0x8ABE ∧ encode (.sknp 0x0) = 0xE0A1 ∧
      encode (.jpV0 0x123) = 0xB123 ∧ encode (.rnd 0x1 0xFF) = 0xC1FF := by decide

/-- The bit numbering of spec/opcode_table.json: the word 0x00EE is RET. -/
theorem test_decodeTableWord :
    decodeTableWord 16 0x00EE = some .ret ∧ decodeTableWord 16 0xF055 = some (.ldMemVx 0) ∧
      decodeTableWord 16 0xFFFF = none := by decide

/-! ### Control transfer (2.2) -/

/-- CF1, CF2. -/
theorem test_jp : (after 0x1234 State.reset).map State.pc = some 0x234 ∧
    (after 0x1201 State.reset).map State.pc = some 0x201 := by decide

/-- CF3. -/
theorem test_call : (after 0x2300 State.reset).map (fun t => (t.stack[0], t.sp, t.pc)) =
    some (0x202, 1, 0x300) := by decide

/-- CF4. -/
theorem test_ret :
    (after 0x00EE { State.reset with sp := 1, pc := 0x30A, stack := State.reset.stack.set 0 0x206 }).map
      (fun t => (t.stack[0], t.sp, t.pc)) = some (0x206, 0, 0x206) := by decide

/-- CF5. -/
theorem test_ret_underflow :
    (after 0x00EE State.reset).map State.status = some (.faulted (.stackUnderflow 0x200)) := by decide

/-- CF6, its last step. -/
theorem test_call_overflow :
    (after 0x2200 { State.reset with sp := 16 }).map State.status = some (.faulted (.stackOverflow 0x200)) := by decide

/-- CF7. -/
theorem test_sys : (after 0x0123 State.reset).map (fun t => (t.pc, t.i, t.sp)) = some (0x202, 0, 0) := by decide

/-- CF8, CF9. -/
theorem test_jpV0 : (after 0xB300 (regs [(0, 0x10)])).map State.pc = some 0x310 ∧
    (after 0xBF01 (regs [(0, 0xFF)])).map State.pc = some 0x1000 := by decide

/-! ### Skips (2.3) -/

/-- SK1, SK2. -/
theorem test_seImm : (after 0x3042 (regs [(0, 0x42)])).map State.pc = some 0x204 ∧
    (after 0x3042 (regs [(0, 0x43)])).map State.pc = some 0x202 := by decide

/-- SK3, SK4. -/
theorem test_sneImm : (after 0x4042 (regs [(0, 0x42)])).map State.pc = some 0x202 ∧
    (after 0x4042 (regs [(0, 0x43)])).map State.pc = some 0x204 := by decide

/-- SK5, SK6. -/
theorem test_seReg : (after 0x5010 (regs [(0, 3), (1, 3)])).map State.pc = some 0x204 ∧
    (after 0x5010 (regs [(0, 3), (1, 4)])).map State.pc = some 0x202 := by decide

/-- SK8, SK9. -/
theorem test_sneReg : (after 0x9010 (regs [(0, 3), (1, 3)])).map State.pc = some 0x202 ∧
    (after 0x9010 (regs [(0, 3), (1, 4)])).map State.pc = some 0x204 := by decide

/-! ### Registers and arithmetic (2.4) -/

/-- AL1. -/
theorem test_ldImm : (after 0x60AB State.reset).map (vfPc 0) = some (0xAB, 0, 0x202) := by decide
/-- AL2. -/
theorem test_addImm : (after 0x70FF (regs [(0, 1), (0xF, 7)])).map (vfPc 0) = some (0, 7, 0x202) := by decide
/-- AL3. -/
theorem test_addImm_vf : (after 0x7F01 (regs [(0xF, 0xFF)])).map (vfPc 0xF) = some (0, 0, 0x202) := by decide
/-- AL4. -/
theorem test_ldReg : (after 0x8010 (regs [(1, 0x42)])).map (vfPc 0) = some (0x42, 0, 0x202) := by decide
/-- AL6. -/
theorem test_orReg :
    (after 0x8011 (regs [(0, 0xF0), (1, 0x0F), (0xF, 0x55)])).map (vfPc 0) = some (0xFF, 0x55, 0x202) := by decide
/-- AL7. -/
theorem test_andReg : (after 0x8012 (regs [(0, 0xF0), (1, 0x3C)])).map (vfPc 0) = some (0x30, 0, 0x202) := by decide
/-- AL8. -/
theorem test_xorReg : (after 0x8013 (regs [(0, 0xFF), (1, 0x0F)])).map (vfPc 0) = some (0xF0, 0, 0x202) := by decide
/-- AL9, AL10. -/
theorem test_addReg : (after 0x8014 (regs [(0, 0xFF), (1, 1)])).map (vfPc 0) = some (0, 1, 0x202) ∧
    (after 0x8014 (regs [(0, 0x80), (1, 0x7F)])).map (vfPc 0) = some (0xFF, 0, 0x202) := by decide
/-- AL12: the flag wins over the sum. -/
theorem test_addReg_vf : (after 0x8FF4 (regs [(0xF, 0x80)])).map (vfPc 0xF) = some (1, 1, 0x202) := by decide
/-- AL14, AL15. -/
theorem test_subReg : (after 0x8015 (regs [(0, 4), (1, 5)])).map (vfPc 0) = some (0xFF, 0, 0x202) ∧
    (after 0x8015 (regs [(0, 5), (1, 5)])).map (vfPc 0) = some (0, 1, 0x202) := by decide
/-- AL16, AL18. -/
theorem test_subReg_wraps : (after 0x8015 (regs [(0, 0), (1, 0xFF)])).map (vfPc 0) = some (1, 0, 0x202) ∧
    (after 0x8FF5 (regs [(0xF, 0x10)])).map (vfPc 0xF) = some (1, 1, 0x202) := by decide
/-- AL19, AL20: Vy is not read. -/
theorem test_shr : (after 0x8006 (regs [(0, 0x81)])).map (vfPc 0) = some (0x40, 1, 0x202) ∧
    (after 0x8016 (regs [(0, 2), (1, 0xFF)])).map (vfPc 0) = some (1, 0, 0x202) := by decide
/-- AL21. -/
theorem test_shr_vf : (after 0x8F06 (regs [(0xF, 1)])).map (vfPc 0xF) = some (1, 1, 0x202) := by decide
/-- AL22, AL23. -/
theorem test_subn : (after 0x8017 (regs [(0, 5), (1, 4)])).map (vfPc 0) = some (0xFF, 0, 0x202) ∧
    (after 0x8017 (regs [(0, 4), (1, 5)])).map (vfPc 0) = some (1, 1, 0x202) := by decide
/-- AL26, AL27. -/
theorem test_shl : (after 0x800E (regs [(0, 0x81)])).map (vfPc 0) = some (2, 1, 0x202) ∧
    (after 0x800E (regs [(0, 0x7F)])).map (vfPc 0) = some (0xFE, 0, 0x202) := by decide
/-- AL28. -/
theorem test_shl_vf : (after 0x8FFE (regs [(0xF, 0x80)])).map (vfPc 0xF) = some (1, 1, 0x202) := by decide
/-- AL29, AL30, whatever the generator draws: the byte is masked, and with the mask 0 the generator still advances. -/
theorem test_rnd (s : State) : (after 0xC00F s).map (fun t => t.readV 0) = some ((Config.rngNext s.rng).1 &&& 0x0F) ∧
    (after 0xC000 s).map (fun t => t.rng) = some (Config.rngNext s.rng).2 := by
  have a : decode 0xC00F = .instr (.rnd 0 0x0F) := by decide
  have b : decode 0xC000 = .instr (.rnd 0 0x00) := by decide
  have c : after 0xC00F s = some ((s.setRng (Config.rngNext s.rng).2).writeV 0 ((Config.rngNext s.rng).1 &&& 0x0F)).advance := by
    unfold after; rw [a]; rfl
  have d : after 0xC000 s = some ((s.setRng (Config.rngNext s.rng).2).writeV 0 ((Config.rngNext s.rng).1 &&& 0x00)).advance := by
    unfold after; rw [b]; rfl
  exact ⟨by rw [c]; simp, by rw [d]; rfl⟩

/-! ### Index register and memory (2.5) -/

/-- IM1. -/
theorem test_ldI : (after 0xA300 State.reset).map State.i = some 0x300 := by decide
/-- IM3, IM4. -/
theorem test_addI :
    (after 0xF21E ((regs [(2, 3), (0xF, 9)]).setI 0xFFE)).map (fun t => (t.i, t.readV 0xF#4)) = some (0x1001, 9) ∧
    (after 0xF01E ((regs [(0, 0xFF)]).setI 0xFFFF)).map State.i = some 0x00FE := by decide
/-- IM5, IM7 under the default mask4. -/
theorem test_ldF : (after 0xF529 (regs [(5, 0x0A)])).map State.i = some 0x032 ∧
    (after 0xF029 (regs [(0, 0x1A)])).map State.i = some 0x032 := by decide
/-- IM7 under full. -/
theorem test_ldF_full :
    (after 0xF029 { regs [(0, 0x1A)] with params := { Config.params with glyphIndexMode := .full } }).map State.i =
      some 0x082 := by decide
/-- IM12, and S10. -/
theorem test_ldB :
    (after 0xF033 ((regs [(0, 0x9C)]).setI 0x300)).map
      (fun t => [Memory.read t.mem 0x300, Memory.read t.mem 0x301, Memory.read t.mem 0x302]) = some [1, 5, 6] ∧
    (after 0xF033 ((regs [(0, 0xFF)]).setI 0x300)).map
      (fun t => [Memory.read t.mem 0x300, Memory.read t.mem 0x301, Memory.read t.mem 0x302]) = some [2, 5, 5] := by decide
/-- IM13. -/
theorem test_ldB_out :
    (after 0xF033 ((regs [(0, 0x9C)]).setI 0xFFE)).map State.status =
      some (.faulted (.memoryOutOfBounds 0x1000)) := by decide
/-- IM14. -/
theorem test_ldMemVx :
    (after 0xF255 ((regs [(0, 1), (1, 2), (2, 3), (3, 4)]).setI 0x400)).map (fun t => (t.mem, t.i)) =
      some ([(0x400, 1), (0x401, 2), (0x402, 3)], 0x400) := by decide
/-- IM15, IM16. -/
theorem test_ldMemVx_edge :
    (after 0xFF55 (State.reset.setI 0xFF0)).map (fun t => (t.status, t.pc)) = some (.running, 0x202) ∧
    (after 0xFF55 (State.reset.setI 0xFF1)).map State.status =
      some (.faulted (.memoryOutOfBounds 0x1000)) := by decide
/-- IM18. -/
theorem test_ldVxMem : (after 0xFF65 State.reset).map State.v = some
    #v[0xF0, 0x90, 0x90, 0x90, 0xF0, 0x20, 0x60, 0x20, 0x20, 0x70, 0xF0, 0x10, 0xF0, 0x80, 0xF0, 0xF0] := by decide
/-- IM20. -/
theorem test_ldVxMem_out :
    (after 0xF065 (State.reset.setI 0x1000)).map State.status =
      some (.faulted (.memoryOutOfBounds 0x1000)) := by decide

/-! ### Display (2.6) -/

/-- DR11. -/
theorem test_cls : (after 0x00E0 (lit 17 0x5A (regs [(0xF, 7)]))).map (fun t => (fbRead t.fb 17, t.readV 0xF#4)) =
    some (0, 7) := by decide
/-- DR2, DR3. -/
theorem test_drw :
    (after 0xD011 (lit 0 0x10 (sprite 0x300 [0xF0] []))).map (fun t => (fbRead t.fb 0, t.readV 0xF#4)) =
      some (0xE0, 1) ∧
    (after 0xD011 (lit 0 0x0F (sprite 0x300 [0xF0] []))).map (fun t => (fbRead t.fb 0, t.readV 0xF#4)) =
      some (0xFF, 0) := by decide
/-- DR6: it wraps at the lower edge. -/
theorem test_drw_wraps :
    (after 0xD012 (sprite 0x300 [0xFF, 0x18] [(0, 3), (1, 31)])).map
      (fun t => ([fbRead t.fb 248, fbRead t.fb 249, fbRead t.fb 0, fbRead t.fb 1], t.readV 0xF#4)) =
      some ([0x1F, 0xE0, 0x03, 0], 0) := by decide

/-- By R271 and S6: over lit pixels the first of two equal draws collides, and the second, which is S6 from FB[0] = 00,
does not (log 34). -/
theorem test_drw_twice_over_lit :
    ((after 0xD011 (lit 0 0xF0 (sprite 0x300 [0xF0] []))).map fun t => (fbRead t.fb 0, t.readV 0xF#4)) = some (0, 1) ∧
    (((after 0xD011 (lit 0 0xF0 (sprite 0x300 [0xF0] []))).bind fun t => after 0xD011 (t.setPc 0x200)).map
      fun t => (fbRead t.fb 0, t.readV 0xF#4)) = some (0xF0, 0) := by decide

/-- DR12 and DR13: over dark pixels the second draw erases glyph 0 and collides, as R274 says. -/
theorem test_drw_twice_over_dark :
    ((after 0xD125 State.reset).bind fun t => after 0xD125 (t.setPc 0x200)).map
      (fun t => ([fbRead t.fb 0, fbRead t.fb 8, fbRead t.fb 32], t.readV 0xF#4)) = some ([0, 0, 0], 1) := by decide

/-! ### Keys and timers (2.7) -/

/-- KT1, KT2. -/
theorem test_skp : (after 0xE49E { regs [(4, 5)] with keys := 0x0020 }).map State.pc = some 0x204 ∧
    (after 0xE49E { regs [(4, 4)] with keys := 0x0020 }).map State.pc = some 0x202 := by decide
/-- KT5, its three policies. -/
theorem test_skp_range :
    (after 0xE09E (keyed .fatal 0xFFFF 0x10)).map State.status = some (.faulted (.keyIndexOutOfRange 0x10)) ∧
    (after 0xE09E (keyed .mask4 0xFFFF 0x10)).map State.pc = some 0x204 ∧
    (after 0xE09E (keyed .notPressed 0xFFFF 0x10)).map State.pc = some 0x202 := by decide
/-- KT3, KT4. -/
theorem test_sknp : (after 0xE4A1 { regs [(4, 5)] with keys := 0x0020 }).map State.pc = some 0x202 ∧
    (after 0xE4A1 { regs [(4, 4)] with keys := 0x0020 }).map State.pc = some 0x204 := by decide
/-- KT6, its three policies. -/
theorem test_sknp_range :
    (after 0xE0A1 (keyed .fatal 0 0x10)).map State.status = some (.faulted (.keyIndexOutOfRange 0x10)) ∧
    (after 0xE0A1 (keyed .mask4 0 0x10)).map State.pc = some 0x204 ∧
    (after 0xE0A1 (keyed .notPressed 0 0x10)).map State.pc = some 0x204 := by decide
/-- KT7, KT10. -/
theorem test_ldVxK :
    (after 0xF20A { State.reset with keys := 0x8100 }).map (vfPc 2) = some (8, 0, 0x202) ∧
    (after 0xF20A (regs [(2, 9)])).map (vfPc 2) = some (9, 0, 0x200) := by decide
/-- KT11. -/
theorem test_ldVxDt : (after 0xF307 { State.reset with dt := 0x3C }).map (vfPc 3) = some (0x3C, 0, 0x202) := by decide
/-- KT12. -/
theorem test_ldDtVx : (after 0xF015 (regs [(0, 5)])).map (fun t => (t.dt, t.st)) = some (5, 0) := by decide
/-- KT13, its first step. -/
theorem test_ldStVx : (after 0xF118 (regs [(1, 2)])).map (fun t => (t.dt, t.st, t.tone)) = some (0, 2, false) := by decide

/-! ### The frame stepper and the host (2.8, 2.9, 2.10) -/

/-- FS1, the start of its first frame: DT 2 to 1, ST 1 to 0, tone true, budget 16666. -/
theorem test_frame_start :
    (stepped { State.reset with dt := 2, st := 1, requests := [.stepFrame 0x0020] }).map
      (fun t => (t.dt, t.st, t.tone, t.keys)) = some (1, 0, true, 0x0020) ∧
    (stepped { State.reset with dt := 2, st := 1, requests := [.stepFrame 0x0020] }).map
      (fun t => (t.budget, t.phase, t.requests)) = some (16666, .fetching, []) := by decide

/-- FS1, its last step of frame 1: the JP that leaves a budget of -334 ends the loop. -/
theorem test_loop_ends :
    (stepped { framed 0x1200 State.reset with budget := 666 }).map (fun t => (t.pc, t.budget, t.phase)) =
      some (0x200, -334, .frameComplete) := by decide

/-- FS3: from budget 1 a DRW of no rows leaves -22733 and VF 0. -/
theorem test_drw_ends_frame :
    (stepped { framed 0xD000 (regs [(0xF, 1)]) with budget := 1 }).map
      (fun t => (t.readV 0xF#4, t.pc, t.budget, t.phase)) = some (0, 0x202, -22733, .frameComplete) := by decide

/-- FS3, frame 2: after accumulation the budget is -6067 and no instruction runs. -/
theorem test_empty_frame :
    (stepped { State.reset with budget := -22733, requests := [.stepFrame 0] }).map (fun t => (t.budget, t.phase)) =
      some (-6067, .frameComplete) := by decide

/-- P5, frame 3: the frame returns tone true. -/
theorem test_frame_return :
    (stepped { State.reset with phase := .frameComplete, tone := true }).map (fun t => (t.phase, t.reply)) =
      some (.idle, some (.frame State.reset.fb true)) := rfl

/-- FS4, EX1. -/
theorem test_fetch_out :
    (stepped { framed 0x1200 State.reset with pc := 0xFFF }).map (fun t => (t.status, t.phase)) =
      some (.faulted (.programCounterOutOfBounds 0xFFF), .idle) := by decide

/-- EX2. -/
theorem test_invalid_word :
    (stepped (framed 0xFFFF State.reset)).map (fun t => (t.status, t.reply)) =
      some (.faulted (.invalidOpcode 0xFFFF), some (.failed (.invalidOpcode 0xFFFF))) := by decide

/-- FS5. -/
theorem test_faulted_core :
    step { State.reset with status := .faulted (.stackUnderflow 0), requests := [.stepFrame 0] } =
      .fault (.coreFaulted (.stackUnderflow 0)) ∧
    (stepped { State.reset with status := .faulted (.stackUnderflow 0), requests := [.readFramebuffer] }).map State.reply =
      some (some (.framebuffer State.reset.fb)) := ⟨rfl, rfl⟩

/-- RS3. -/
theorem test_loadProgram :
    (stepped { State.reset with requests := [.loadProgram [0x60, 0x01]] }).map (fun t => (t.mem, t.reply)) =
      some ([(0x200, 0x60), (0x201, 0x01)], some .loaded) := by decide

/-- S2, EX8: 3585 bytes are too many, 3584 are not. -/
theorem test_loadProgram_limit :
    (State.reset.loadProgram (List.replicate 3585 0x11)).reply = some (.programTooLarge 3585) ∧
      ¬ Config.memSize - Config.loadAddr < 3584 := by
  refine ⟨?_, by decide⟩
  unfold State.loadProgram
  rw [List.length_replicate, if_pos (by simp only [Config.memSize, Config.loadAddr]; omega)]

/-! ### Witnesses: states and operands that meet the hypotheses of the obligations -/

theorem witness_DecodeOfEncode : WellFormed (.sys 0x0EF) = true ∧ WellFormed (.drw 0xF 0xF 0xF) = true := by decide

theorem witness_EncodeOfDecode :
    decode 0x8FFE = .instr (.shl 0xF 0xF) ∧ WellFormed (.shl 0xF 0xF) = true ∧ encode (.shl 0xF 0xF) = 0x8FFE := by decide

/-- Why only well-formed instructions have a word of their own: SYS 0x0E0 would have the word of CLS. -/
theorem witness_EncodeOfDecode_boundary :
    decode 0x00E0 = .instr .cls ∧ WellFormed .cls = true ∧ encode (.sys 0x0E0) = 0x00E0 ∧
      WellFormed (.sys 0x0E0) = false := by decide

theorem witness_ClassesEAndFInvalidWords :
    (fieldOp 0xE09E = 0xE ∧ fieldKk 0xE09E = 0x9E) ∧ (fieldOp 0xEFA1 = 0xE ∧ fieldKk 0xEFA1 = 0xA1) ∧
      fieldOp 0xE0A2 = 0xE ∧ fieldOp 0xFF65 = 0xF ∧ fieldOp 0xF066 = 0xF := by decide

/-- Each row of the table of 30_encoding.md R112 has a word. -/
theorem witness_InvalidWords :
    (fieldOp 0x5001 = 0x5 ∧ fieldN 0x5001 ≠ 0) ∧ (fieldOp 0x8FF8 = 0x8 ∧ fieldN 0x8FF8 = 0x8) ∧
      (fieldOp 0x900F = 0x9 ∧ fieldN 0x900F ≠ 0) ∧ (fieldOp 0xE000 = 0xE ∧ fieldKk 0xE000 = 0) ∧
      (fieldOp 0xFFFF = 0xF ∧ fieldKk 0xFFFF = 0xFF) := by decide

theorem witness_SysAndJump :
    ((0x0E1 : Addr) ≠ 0x0E0 ∧ (0x0E1 : Addr) ≠ 0x0EE) ∧ ((0xEE0 : Addr) ≠ 0x0E0 ∧ (0xEE0 : Addr) ≠ 0x0EE) := by decide

theorem witness_CallPushesReturnAddress :
    State.reset.sp.val < 16 ∧ ({ State.reset with sp := 15 } : State).sp.val < 16 := by decide

theorem witness_ReturnPopsAddress :
    ({ State.reset with sp := 1 } : State).sp.val = (0 : Fin 16).val + 1 ∧
      ({ State.reset with sp := 16 } : State).sp.val = (15 : Fin 16).val + 1 := by decide

theorem witness_StackErrors : ({ State.reset with sp := 16 } : State).sp.val = 16 ∧ State.reset.sp.val = 0 := by decide

theorem witness_CallThenReturn :
    State.reset.sp.val < 16 ∧ ∃ t, exec (.call 0x300) State.reset = .next t ∧ ∃ u : State, u.stack = t.stack ∧ u.sp = t.sp :=
  ⟨by decide, _, rfl, _, rfl, rfl⟩

/-- The results with a flag: a destination that is not VF. -/
theorem witness_AddWithCarry : (0xE#4 : Nibble) ≠ 0xF#4 ∧ (0x0#4 : Nibble) ≠ 0xF#4 := by decide

theorem witness_SubtractWithNotBorrow : (0xE#4 : Nibble) ≠ 0xF#4 := by decide

theorem witness_ShiftsWithBitOut : (0xE#4 : Nibble) ≠ 0xF#4 := by decide

theorem witness_AddImmediateWithoutFlag : (0xF#4 : Nibble) ≠ 0x0#4 := by decide

theorem witness_AddIndexAndGlyphAddress :
    State.reset.params.glyphIndexMode = .mask4 ∧
      ({ State.reset with params := { Config.params with glyphIndexMode := .full } } : State).params.glyphIndexMode =
        .full := by decide

theorem witness_StoreDecimalDigits :
    (State.reset.setI 0xFFD).i.toNat + 3 ≤ 4096 ∧ 4096 < (State.reset.setI 0xFFE).i.toNat + 3 := by decide

theorem witness_StoreRegisters :
    (State.reset.setI 0xFF0).i.toNat + (0xF#4).toNat < 4096 ∧ 4096 ≤ (State.reset.setI 0xFF1).i.toNat + (0xF#4).toNat ∧
      (State.reset.setI 0xFFF).i.toNat + (0x0#4).toNat < 4096 ∧ (0xF#4).toNat ≤ (0xF#4).toNat := by decide

theorem witness_LoadRegisters :
    (State.reset.setI 0xFF0).i.toNat + (0xF#4).toNat < 4096 ∧
      4096 ≤ (State.reset.setI 0x1000).i.toNat + (0x0#4).toNat := by decide

theorem witness_StoreThenLoadRegisters :
    (State.reset.setI 0xFF0).i.toNat + (0xF#4).toNat < 4096 ∧
      ∃ t, exec (.ldMemVx 0xF) (State.reset.setI 0xFF0) = .next t ∧ ∃ u : State, u.mem = t.mem ∧ u.i = (State.reset.setI 0xFF0).i := by
  obtain ⟨t, h, _⟩ := exists_exec (i := .ldMemVx 0xF) (s := State.reset.setI 0xFF0) (p := fun _ => true) (by decide)
  exact ⟨by decide, t, h, (State.reset.setI 0xFF0).setMem t.mem, rfl, rfl⟩

theorem witness_FetchSeesStores :
    (State.reset.setI 0x200).i.toNat + (0x1#4).toNat < 4096 ∧ (State.reset.setI 0x200).i.toNat ≤ (0x200#16).toNat ∧
      (0x200#16).toNat + 1 ≤ (State.reset.setI 0x200).i.toNat + (0x1#4).toNat ∧
      (State.reset.setI 0x200).i.toNat + (0x0#4).toNat = (0x200#16).toNat := by decide

/-- The top of memory, and a sprite of no rows anywhere; a collision and none. -/
theorem witness_DrawInvertsCoveredPixels :
    (State.reset.setI 0xFF1).i.toNat + (0xF#4).toNat ≤ 4096 ∧ ((0#4 : Nibble) = 0) ∧
      (pixel (lit 0 0x10 State.reset).fb 3 0 = true ∧
        spriteCovers (sprite 0x300 [0xF0] []).mem 0x300 0 0 1 3 0 = true) ∧
      (∀ px py, pixel State.reset.fb px py = true → spriteCovers State.reset.mem 0x300 0 0 1 px py = false) := by
  refine ⟨by decide, rfl, by decide, fun px py h => ?_⟩
  simp [pixel, fbRead, State.reset, State.construct] at h

theorem witness_DrawOutOfBounds :
    (0x2#4 : Nibble) ≠ 0 ∧ 4096 < (State.reset.setI 0xFFF).i.toNat + (0x2#4).toNat := by decide

theorem witness_DrawTwiceRestores :
    State.reset.i.toNat + (0x5#4).toNat ≤ 4096 ∧ ∃ t, exec (.drw 1 2 5) State.reset = .next t ∧
      ∃ u : State, u.fb = t.fb ∧ u.mem = State.reset.mem ∧ u.i = State.reset.i ∧
        u.readV 1 = State.reset.readV 1 ∧ u.readV 2 = State.reset.readV 2 := by
  obtain ⟨t, h, _⟩ := exists_exec (i := .drw 1 2 5) (s := State.reset) (p := fun _ => true) (by decide)
  exact ⟨by decide, t, h, State.reset.setFb t.fb, rfl, rfl, rfl, rfl, rfl⟩

theorem witness_KeySkips : ((regs [(4, 0xF)]).readV 4).toNat ≤ 0xF ∧ (State.reset.readV 4).toNat ≤ 0xF := by decide

theorem witness_KeyNumberOutOfRange :
    (0xF < ((keyed .fatal 0 0x10).readV 0).toNat ∧ (keyed .fatal 0 0x10).params.keyRangePolicy = .fatal) ∧
    (0xF < ((keyed .mask4 0 0x10).readV 0).toNat ∧ (keyed .mask4 0 0x10).params.keyRangePolicy = .mask4) ∧
    (0xF < ((keyed .notPressed 0 0xFF).readV 0).toNat ∧
      (keyed .notPressed 0 0xFF).params.keyRangePolicy = .notPressed) := by decide

theorem witness_WaitForKey :
    (15 < 16 ∧ keyBit 0x8000 15 = true ∧ ∀ j, j < 15 → keyBit 0x8000 j = false) ∧
      (keyBit 0x0001 0 = true ∧ ∀ j, j < 0 → keyBit 0x0001 j = false) ∧ (∀ k, k < 16 → keyBit 0 k = false) := by decide

theorem witness_WritersOfEachPart :
    (∀ e, ¬ Raises (.ldVxMem 0xF) State.reset e) ∧ ∃ t, exec (.ldVxMem 0xF) State.reset = .next t := by
  obtain ⟨t, h, _⟩ := exists_exec (i := .ldVxMem 0xF) (s := State.reset) (p := fun _ => true) (by decide)
  exact ⟨fun e h => absurd h.1.2 (by decide), t, h⟩

/-- Rows of the table of 10_state.md R34: DRW and the flag instructions write VF, a block load no register above Vx. -/
theorem witness_WritersOfEachPart_registers :
    (writesV (.drw 1 2 5) 0xE = false ∧ writesV (.drw 1 2 5) 0xF = true) ∧
      (writesV (.addReg 1 2) 2 = false ∧ writesV (.addReg 1 2) 0xF = true) ∧
      (writesV (.ldVxMem 3) 3 = true ∧ writesV (.ldVxMem 3) 4 = false) ∧ writesV (.orReg 1 2) 0xF = false := by decide

theorem witness_EffectsIgnoreCosts :
    (∀ e, ¬ Raises (.call 0x300) State.reset e) ∧ Raises .ret State.reset (.stackUnderflow 0x200) :=
  ⟨fun e h => absurd h.1 (by decide), by decide, rfl⟩

theorem witness_StepRunsDecodedInstruction :
    (framed 0xF055 State.reset).phase = .fetching ∧ (framed 0xF055 State.reset).status = .running ∧
      0 < (framed 0xF055 State.reset).budget ∧ (framed 0xF055 State.reset).pc.toNat + 1 < 4096 ∧
      decode (wordOfBytes (Memory.read (framed 0xF055 State.reset).mem (framed 0xF055 State.reset).pc.toNat)
        (Memory.read (framed 0xF055 State.reset).mem ((framed 0xF055 State.reset).pc.toNat + 1))) =
        .instr (.ldMemVx 0) := by decide

/-- A fetch at 0xFFF is out of memory, one at 0xFFE is not. -/
theorem witness_FetchAndDecodeErrors :
    ((framed 0xFFFF { State.reset with pc := 0xFFE }).phase = .fetching ∧
      (framed 0xFFFF { State.reset with pc := 0xFFE }).status = .running ∧
      0 < (framed 0xFFFF { State.reset with pc := 0xFFE }).budget) ∧
    4096 ≤ ({ framed 0xFFFF State.reset with pc := 0xFFF } : State).pc.toNat + 1 ∧
    (framed 0xFFFF { State.reset with pc := 0xFFE }).pc.toNat + 1 < 4096 ∧
    decode (wordOfBytes (Memory.read (framed 0xFFFF { State.reset with pc := 0xFFE }).mem 0xFFE)
      (Memory.read (framed 0xFFFF { State.reset with pc := 0xFFE }).mem 0xFFF)) = .invalidOpcode 0xFFFF := by decide

theorem witness_FrameStart :
    State.reset.phase = .idle ∧ State.reset.status = .running ∧ State.reset.budget ≤ 0 ∧
      ({ State.reset with requests := [.stepFrame 0x8001, .readFramebuffer] } : State).requests =
        .stepFrame 0x8001 :: [.readFramebuffer] := by decide

/-- The two outcomes of the loop condition at a frame's start: a budget of 1, and one of 0. -/
theorem witness_FrameStart_budgets :
    (stepped { State.reset with budget := -16665, requests := [.stepFrame 0] }).map (fun t => (t.budget, t.phase)) =
      some (1, .fetching) ∧
    (stepped { State.reset with budget := -16666, requests := [.stepFrame 0] }).map (fun t => (t.budget, t.phase)) =
      some (0, .frameComplete) := by decide

theorem witness_FrameReturn :
    ({ State.reset with phase := .frameComplete } : State).phase = .frameComplete ∧
      ({ State.reset with phase := .frameComplete } : State).status = .running := by decide

theorem witness_EveryFrameEnds :
    ({ State.reset with requests := [.stepFrame 0] } : State).phase = .idle ∧
      ({ State.reset with requests := [.stepFrame 0] } : State).status = .running ∧
      ({ State.reset with requests := [.stepFrame 0] } : State).budget ≤ 0 ∧
      ({ State.reset with requests := [.stepFrame 0] } : State).requests = .stepFrame 0 :: [] := by decide

theorem witness_DrawEndsFrame :
    let s := framed 0xD125 State.reset
    (s.phase = .fetching ∧ s.status = .running ∧ 0 < s.budget ∧ s.budget ≤ 16666 ∧ s.pc.toNat + 1 < 4096 ∧
      decode (wordOfBytes (Memory.read s.mem s.pc.toNat) (Memory.read s.mem (s.pc.toNat + 1))) = .instr (.drw 1 2 5)) ∧
      ∃ t, step s = .next t ∧ t.status = .running := by
  obtain ⟨t, h, k⟩ := exists_step (s := framed 0xD125 State.reset) (p := fun t => decide (t.status = .running)) (by decide)
  exact ⟨by decide, t, h, of_decide_eq_true k⟩

theorem witness_KeysAndTimersInsideFrame :
    let s := framed 0xF015 (regs [(0, 5)])
    (s.status = .running ∧ s.phase ≠ .idle) ∧ ∃ t, step s = .next t ∧ t.status = .running ∧ t.dt ≠ s.dt := by
  obtain ⟨t, h, k⟩ := exists_step (s := framed 0xF015 (regs [(0, 5)]))
    (p := fun t => decide (t.status = .running ∧ t.dt ≠ (framed 0xF015 (regs [(0, 5)])).dt)) (by decide)
  exact ⟨by decide, t, h, of_decide_eq_true k⟩

/-- A Running core and a Faulted one. -/
theorem witness_ConstructMakesNewCore :
    ({ State.reset with requests := [.construct 7] } : State).phase = .idle ∧
      ({ State.reset with requests := [.construct 7] } : State).requests = .construct 7 :: [] ∧
      ({ State.reset with status := .faulted (.invalidOpcode 0xFFFF) } : State).phase = .idle := ⟨rfl, rfl, rfl⟩

theorem witness_LoadProgramWritesOrRejects :
    (State.reset.phase = .idle ∧ State.reset.status = .running) ∧
      (List.replicate 3584 (0 : Byte)).length ≤ 3584 ∧ 3584 < (List.replicate 3585 (0 : Byte)).length :=
  ⟨by decide, by rw [List.length_replicate], by rw [List.length_replicate]; decide⟩

theorem witness_ReadFramebufferAnswers :
    ({ State.reset with requests := [.readFramebuffer] } : State).phase = .idle ∧
      ({ State.reset with requests := [.readFramebuffer] } : State).requests = .readFramebuffer :: [] := by decide

/-- A Faulted core with each of the three requests that FaultedIsTerminal tells apart. -/
theorem witness_FaultedIsTerminal :
    let s : State := { State.reset with status := .faulted (.stackUnderflow 0x200) }
    (s.status = .faulted (.stackUnderflow 0x200) ∧ s.phase = .idle) ∧
      ({ s with requests := [.stepFrame 1] } : State).requests = .stepFrame 1 :: [] ∧
      ({ s with requests := [.loadProgram [1]] } : State).requests = .loadProgram [1] :: [] ∧
      (∃ t, step { s with requests := [.readFramebuffer] } = .next t) ∧
      (∃ t, step { s with requests := [.construct 0] } = .next t) := ⟨⟨rfl, rfl⟩, rfl, rfl, ⟨_, rfl⟩, ⟨_, rfl⟩⟩

theorem witness_RunningCoreAlwaysSteps : State.reset.status = .running := rfl

/-- The reset state meets the invariant and has a step; so has a state inside a frame. -/
theorem witness_StepKeepsInvariant :
    (Inv (framed 0x1200 State.reset) ∧ ∃ t, step (framed 0x1200 State.reset) = .next t) ∧
      ∃ t, step State.reset = .next t := by
  refine ⟨⟨⟨by decide, fun e h => ?_, fun _ => ⟨by decide, fun j h => ?_, ?_⟩⟩, ?_⟩, ⟨_, rfl⟩⟩
  · exact absurd h (by simp [framed, State.withFetchWord])
  · exact absurd h (by simp [framed, State.withFetchWord, State.reset, State.construct])
  · exact ⟨(by decide : 0 < (framed 0x1200 State.reset).budget), (by decide : (framed 0x1200 State.reset).budget ≤ 16666)⟩
  · obtain ⟨t, h, _⟩ := exists_step (s := framed 0x1200 State.reset) (p := fun _ => true) (by decide)
    exact ⟨t, h⟩

theorem witness_ParametersFixed : ∃ t, step State.reset = .next t := ⟨_, rfl⟩

theorem witness_MemoryCanonical :
    Memory.wf [(0x000, 0xAA), (0xFFF, 0x01)] = true ∧ Memory.wf (Memory.write [(0x200, 0x12)] 0x200 0) = true ∧
      Memory.write [(0x200, 0x12)] 0x200 0 = [] := by decide

end Sys2Proof.Tests
end

section
/-! The decoder in classes E and F (30_encoding.md R110, R111): which function codes are rejected, and what the two
codes of class E give. -/

namespace Sys2Proof

theorem decode_of_fieldOp_E {w : Word} (hop : fieldOp w = 0xE) : decode w = decodeClassE w := by
  simp [decode, hop]

theorem decode_of_fieldOp_F {w : Word} (hop : fieldOp w = 0xF) : decode w = decodeClassF w := by
  simp [decode, hop]

theorem decodeClassE_of_fieldKk_9E {w : Word} (hkk : fieldKk w = 0x9E) :
    decodeClassE w = .instr (.skp (fieldX w)) := by
  simp [decodeClassE, hkk]

theorem decodeClassE_of_fieldKk_A1 {w : Word} (hkk : fieldKk w = 0xA1) :
    decodeClassE w = .instr (.sknp (fieldX w)) := by
  simp [decodeClassE, hkk]

/-- The split follows the arms of `decodeClassE`: in an arm with a code both sides fail, in the last both hold. -/
theorem decodeClassE_eq_invalidOpcode_iff (w w' : Word) :
    decodeClassE w = .invalidOpcode w' ↔ w' = w ∧ fieldKk w ∉ ([0x9E, 0xA1] : List Byte) := by
  unfold decodeClassE
  split
  case h_3 hSkp hSknp =>
    have hnot : fieldKk w ∉ ([0x9E, 0xA1] : List Byte) := by
      simpa [← BitVec.toNat_inj] using ⟨hSkp, hSknp⟩
    simp only [hnot, Decoded.invalidOpcode.injEq, not_false_eq_true, and_true, eq_comm]
  all_goals
    rename_i hcode
    simp [← BitVec.toNat_inj, hcode]

/-- The split follows the arms of `decodeClassF`, as for class E. -/
theorem decodeClassF_eq_invalidOpcode_iff (w w' : Word) :
    decodeClassF w = .invalidOpcode w' ↔ w' = w ∧
      fieldKk w ∉ ([0x07, 0x0A, 0x15, 0x18, 0x1E, 0x29, 0x33, 0x55, 0x65] : List Byte) := by
  unfold decodeClassF
  split
  case h_10 h07 h0A h15 h18 h1E h29 h33 h55 h65 =>
    have hnot : fieldKk w ∉ ([0x07, 0x0A, 0x15, 0x18, 0x1E, 0x29, 0x33, 0x55, 0x65] : List Byte) := by
      simpa [← BitVec.toNat_inj] using ⟨h07, h0A, h15, h18, h1E, h29, h33, h55, h65⟩
    simp only [hnot, Decoded.invalidOpcode.injEq, not_false_eq_true, and_true, eq_comm]
  all_goals
    rename_i hcode
    simp [← BitVec.toNat_inj, hcode]

/-- Settles O3: op selects the class's own decoder, and the lemmas on that decoder say which codes it accepts. -/
theorem classesEAndFInvalidWords : Obligations.ClassesEAndFInvalidWords := by
  unfold Obligations.ClassesEAndFInvalidWords
  refine ⟨fun w hop hkk => ?skp, fun w hop hkk => ?sknp, fun w hop => ?classE, fun w hop => ?classF⟩
  case skp => rw [decode_of_fieldOp_E hop, decodeClassE_of_fieldKk_9E hkk]
  case sknp => rw [decode_of_fieldOp_E hop, decodeClassE_of_fieldKk_A1 hkk]
  case classE =>
    rw [decode_of_fieldOp_E hop, decodeClassE_eq_invalidOpcode_iff]
    simp
  case classF =>
    rw [decode_of_fieldOp_F hop, decodeClassF_eq_invalidOpcode_iff]
    simp

end Sys2Proof
end

section
/-! SYS and JP (40_control_flow.md R142, R143): the words they are decoded from, and the frame of a write of pc. -/

namespace Sys2Proof

theorem decode_of_fieldOp_0 {w : Word} (hop : fieldOp w = 0x0) : decode w = decodeClass0 w := by
  simp [decode, hop]

theorem decode_of_fieldOp_1 {w : Word} (hop : fieldOp w = 0x1) : decode w = .instr (.jp (fieldNnn w)) := by
  simp [decode, hop]

theorem decodeClass0_of_ne_cls_ret {w : Word} (hcls : w ≠ 0x00E0) (hret : w ≠ 0x00EE) :
    decodeClass0 w = .instr (.sys (fieldNnn w)) := by
  rw [decodeClass0, if_neg hcls, if_neg hret]

theorem encNNN_ne_of_ne_fieldNnn {op : Nibble} {nnn : Addr} {w : Word} (h : nnn ≠ fieldNnn w) :
    encNNN op nnn ≠ w :=
  ne_of_apply_ne fieldNnn (by rwa [fieldNnn_encNNN])

theorem decode_encNNN_sys {nnn : Addr} (hcls : nnn ≠ 0x0E0) (hret : nnn ≠ 0x0EE) :
    decode (encNNN 0x0 nnn) = .instr (.sys nnn) := by
  have hclsWord : encNNN 0x0 nnn ≠ 0x00E0 := encNNN_ne_of_ne_fieldNnn hcls
  have hretWord : encNNN 0x0 nnn ≠ 0x00EE := encNNN_ne_of_ne_fieldNnn hret
  rw [decode_of_fieldOp_0 (fieldOp_encNNN ..), decodeClass0_of_ne_cls_ret hclsWord hretWord, fieldNnn_encNNN]

theorem decode_encNNN_jp (nnn : Addr) : decode (encNNN 0x1 nnn) = .instr (.jp nnn) := by
  rw [decode_of_fieldOp_1 (fieldOp_encNNN ..), fieldNnn_encNNN]

namespace Machine

theorem State.frame_setPc (s : State) (target : Word) : Frame [.pc] s (s.setPc target) := by
  intro p hp
  cases p
  case pc => simp at hp
  all_goals simp [Part.Same]

theorem State.frame_advance (s : State) : Frame [.pc] s s.advance := s.frame_setPc (s.pc + 2)

theorem exec_sys (nnn : Addr) (s : State) : exec (.sys nnn) s = .next s.advance := rfl

theorem exec_jp (nnn : Addr) (s : State) : exec (.jp nnn) s = .next (s.setPc (zextAddr nnn)) := rfl

/-- After a jump to FFF the second byte of the fetch would lie past memory (40_control_flow.md R143, R146). -/
theorem State.fetch_setPc_zextAddr_FFF (s : State) :
    (s.setPc (zextAddr 0xFFF)).fetch = .error (.programCounterOutOfBounds (zextAddr 0xFFF)) :=
  State.fetch_error (by rw [State.setPc_pc, zextAddr_toNat]; decide)

end Machine

open Machine

/-- Settles O6: each word selects its class by op, and each meaning is one write of pc, which has the frame `[.pc]`. -/
theorem sysAndJump : Obligations.SysAndJump := by
  unfold Obligations.SysAndJump
  intro nnn s
  refine ⟨decode_encNNN_sys, decode_encNNN_jp nnn,
    ⟨s.advance, exec_sys nnn s, s.advance_pc, s.frame_advance⟩,
    ⟨s.setPc (zextAddr nnn), exec_jp nnn s, zextAddr_toNat nnn, s.frame_setPc _, ?fetchFails⟩⟩
  case fetchFails =>
    rintro rfl
    exact ⟨_, s.fetch_setPc_zextAddr_FFF⟩

end Sys2Proof
end

section
/-! SE and SNE with an immediate (41_skips.md R171, R172): the words they are decoded from, and the frame of a skip. -/

namespace Sys2Proof

theorem decode_of_fieldOp_3 {w : Word} (hop : fieldOp w = 0x3) :
    decode w = .instr (.seImm (fieldX w) (fieldKk w)) := by
  simp [decode, hop]

theorem decode_of_fieldOp_4 {w : Word} (hop : fieldOp w = 0x4) :
    decode w = .instr (.sneImm (fieldX w) (fieldKk w)) := by
  simp [decode, hop]

theorem decode_encXKK_seImm (x : Nibble) (kk : Byte) : decode (encXKK 0x3 x kk) = .instr (.seImm x kk) := by
  rw [decode_of_fieldOp_3 (fieldOp_encXKK ..), fieldX_encXKK, fieldKk_encXKK]

theorem decode_encXKK_sneImm (x : Nibble) (kk : Byte) : decode (encXKK 0x4 x kk) = .instr (.sneImm x kk) := by
  rw [decode_of_fieldOp_4 (fieldOp_encXKK ..), fieldX_encXKK, fieldKk_encXKK]

namespace Machine

theorem State.frame_skipIf (s : State) (c : Bool) : Frame [.pc] s (s.skipIf c) := s.frame_setPc _

theorem exec_seImm (x : Nibble) (kk : Byte) (s : State) :
    exec (.seImm x kk) s = .next (s.skipIf (s.readV x == kk)) := rfl

theorem exec_sneImm (x : Nibble) (kk : Byte) (s : State) :
    exec (.sneImm x kk) s = .next (s.skipIf (s.readV x != kk)) := rfl

end Machine

open Machine

/-- Settles O12: op selects the instruction, and each meaning is one skip on its comparison, whose `pc` is the choice of
`State.skipIf_pc` and whose frame is `[.pc]`. -/
theorem skipsOnImmediate : Obligations.SkipsOnImmediate := by
  unfold Obligations.SkipsOnImmediate
  intro x kk s
  refine ⟨decode_encXKK_seImm x kk, ⟨s.skipIf (s.readV x == kk), exec_seImm x kk s, ?sePc, s.frame_skipIf _⟩,
    decode_encXKK_sneImm x kk, ⟨s.skipIf (s.readV x != kk), exec_sneImm x kk s, ?snePc, s.frame_skipIf _⟩⟩
  case sePc => simp only [State.skipIf_pc, beq_iff_eq]
  case snePc => simp only [State.skipIf_pc, bne_iff_ne]

end Sys2Proof
end

section
/-! LD, OR, AND, XOR and ADD with an immediate (42_register_alu.md R191 to R196): the words they are decoded from, and
what one write of a register at the end of an instruction does to the state. -/

namespace Sys2Proof

theorem decode_of_fieldOp_6 {w : Word} (hop : fieldOp w = 0x6) :
    decode w = .instr (.ldImm (fieldX w) (fieldKk w)) := by
  simp [decode, hop]

theorem decode_of_fieldOp_7 {w : Word} (hop : fieldOp w = 0x7) :
    decode w = .instr (.addImm (fieldX w) (fieldKk w)) := by
  simp [decode, hop]

theorem decode_of_fieldOp_8 {w : Word} (hop : fieldOp w = 0x8) : decode w = decodeClass8 w := by
  simp [decode, hop]

theorem decode_encXKK_ldImm (x : Nibble) (kk : Byte) : decode (encXKK 0x6 x kk) = .instr (.ldImm x kk) := by
  rw [decode_of_fieldOp_6 (fieldOp_encXKK ..), fieldX_encXKK, fieldKk_encXKK]

theorem decode_encXKK_addImm (x : Nibble) (kk : Byte) : decode (encXKK 0x7 x kk) = .instr (.addImm x kk) := by
  rw [decode_of_fieldOp_7 (fieldOp_encXKK ..), fieldX_encXKK, fieldKk_encXKK]

theorem decode_encXYN_ldReg (x y : Nibble) : decode (encXYN 0x8 x y 0x0) = .instr (.ldReg x y) := by
  rw [decode_of_fieldOp_8 (fieldOp_encXYN ..)]
  simp [decodeClass8]

theorem decode_encXYN_orReg (x y : Nibble) : decode (encXYN 0x8 x y 0x1) = .instr (.orReg x y) := by
  rw [decode_of_fieldOp_8 (fieldOp_encXYN ..)]
  simp [decodeClass8]

theorem decode_encXYN_andReg (x y : Nibble) : decode (encXYN 0x8 x y 0x2) = .instr (.andReg x y) := by
  rw [decode_of_fieldOp_8 (fieldOp_encXYN ..)]
  simp [decodeClass8]

theorem decode_encXYN_xorReg (x y : Nibble) : decode (encXYN 0x8 x y 0x3) = .instr (.xorReg x y) := by
  rw [decode_of_fieldOp_8 (fieldOp_encXYN ..)]
  simp [decodeClass8]

namespace Machine

theorem exec_ldImm (x : Nibble) (kk : Byte) (s : State) :
    exec (.ldImm x kk) s = .next (s.writeV x kk).advance := rfl

theorem exec_addImm (x : Nibble) (kk : Byte) (s : State) :
    exec (.addImm x kk) s = .next (s.writeV x (addResult (s.readV x) kk)).advance := rfl

theorem exec_ldReg (x y : Nibble) (s : State) :
    exec (.ldReg x y) s = .next (s.writeV x (s.readV y)).advance := rfl

theorem exec_orReg (x y : Nibble) (s : State) :
    exec (.orReg x y) s = .next (s.writeV x (s.readV x ||| s.readV y)).advance := rfl

theorem exec_andReg (x y : Nibble) (s : State) :
    exec (.andReg x y) s = .next (s.writeV x (s.readV x &&& s.readV y)).advance := rfl

theorem exec_xorReg (x y : Nibble) (s : State) :
    exec (.xorReg x y) s = .next (s.writeV x (s.readV x ^^^ s.readV y)).advance := rfl

theorem State.frame_writeV_advance (s : State) (x : Nibble) (b : Byte) :
    Frame [.v, .pc] s (s.writeV x b).advance := by
  intro p hp
  cases p
  case v => simp at hp
  case pc => simp at hp
  all_goals simp [Part.Same]

/-- What an instruction does whose meaning is one register write: the shape of R191 and R193 to R196. -/
theorem exec_writes_register {i : Instr} {s : State} {x : Nibble} {b : Byte}
    (hexec : exec i s = .next (s.writeV x b).advance) :
    ∃ t, exec i s = .next t ∧ t.pc = s.pc + 2 ∧ (∀ r, t.readV r = if r = x then b else s.readV r) ∧
      Frame [.v, .pc] s t := by
  refine ⟨(s.writeV x b).advance, hexec, ?pc, fun r => ?readV, s.frame_writeV_advance x b⟩
  case pc => rw [State.advance_pc, State.writeV_pc]
  case readV => rw [State.advance_readV, State.writeV_readV]

end Machine

open Machine

/-- Settles O14: op, and in class 8 the code n, select the instruction, and each meaning is one register write. -/
theorem loadsAndLogic : Obligations.LoadsAndLogic := by
  unfold Obligations.LoadsAndLogic
  intro x y kk s
  exact ⟨decode_encXKK_ldImm x kk, exec_writes_register (exec_ldImm x kk s),
    decode_encXYN_ldReg x y, exec_writes_register (exec_ldReg x y s),
    decode_encXYN_orReg x y, exec_writes_register (exec_orReg x y s),
    decode_encXYN_andReg x y, exec_writes_register (exec_andReg x y s),
    decode_encXYN_xorReg x y, exec_writes_register (exec_xorReg x y s)⟩

/-- Settles O15: the meaning is one register write of `addResult`, so the register written is x alone, VF only where
x = F. -/
theorem addImmediateWithoutFlag : Obligations.AddImmediateWithoutFlag := by
  unfold Obligations.AddImmediateWithoutFlag
  intro x kk s
  obtain ⟨t, hexec, hpc, hreadV, hframe⟩ := exec_writes_register (exec_addImm x kk s)
  refine ⟨decode_encXKK_addImm x kk, t, hexec, hpc, ?sum, fun r hr => ?others, hframe⟩
  case sum => rw [hreadV, if_pos rfl, addResult_toNat]
  case others => rw [hreadV, if_neg hr]

end Sys2Proof
end

section
/-! LD I, addr (43_index_memory.md R240): the word it is decoded from, and the frame of a write of I at the end of an
instruction. -/

namespace Sys2Proof

theorem decode_of_fieldOp_A {w : Word} (hop : fieldOp w = 0xA) : decode w = .instr (.ldI (fieldNnn w)) := by
  simp [decode, hop]

theorem decode_encNNN_ldI (nnn : Addr) : decode (encNNN 0xA nnn) = .instr (.ldI nnn) := by
  rw [decode_of_fieldOp_A (fieldOp_encNNN ..), fieldNnn_encNNN]

namespace Machine

theorem exec_ldI (nnn : Addr) (s : State) : exec (.ldI nnn) s = .next (s.setI (zextAddr nnn)).advance := rfl

theorem State.frame_setI_advance (s : State) (w : Word) : Frame [.i, .pc] s (s.setI w).advance := by
  intro p hp
  cases p
  case i => simp at hp
  case pc => simp at hp
  all_goals simp [Part.Same]

end Machine

open Machine

/-- Settles O20: op selects the instruction, and its meaning is one write of I, whose value `zextAddr_toNat` reads as
nnn and whose frame is `[.i, .pc]`. -/
theorem loadIndex : Obligations.LoadIndex := by
  unfold Obligations.LoadIndex
  intro nnn s
  refine ⟨decode_encNNN_ldI nnn, (s.setI (zextAddr nnn)).advance, exec_ldI nnn s, ?pc, ?index, s.frame_setI_advance _⟩
  case pc => rw [State.advance_pc, State.setI_pc]
  case index => rw [State.advance_i, State.setI_i, zextAddr_toNat]

end Sys2Proof
end

section
/-! The frame stepper's transactions (48_frame_stepper.md R340 to R343, R348, R354): what the start of a frame, its return
and a read of the framebuffer do to the state. -/

namespace Sys2Proof

namespace Machine

theorem hostTurn_stepFrame {s : State} {keys : Word} {later : List HostRequest} (hrun : s.status = .running)
    (hreq : s.requests = .stepFrame keys :: later) :
    hostTurn s = .next (({ s with requests := later } : State).beginFrame keys) := by
  simp only [hostTurn, hreq, hrun]

/-- ReadFramebuffer is answered in either status (48_frame_stepper.md R354, R355). -/
theorem hostTurn_readFramebuffer {s : State} {later : List HostRequest}
    (hreq : s.requests = .readFramebuffer :: later) :
    hostTurn s = .next ({ s with requests := later } : State).readFramebuffer := by
  simp only [hostTurn, hreq]

theorem State.beginFrame_dt_toNat (s : State) (keys : Word) : (s.beginFrame keys).dt.toNat = s.dt.toNat - 1 :=
  countDown_toNat s.dt

theorem State.beginFrame_st_toNat (s : State) (keys : Word) : (s.beginFrame keys).st.toNat = s.st.toNat - 1 :=
  countDown_toNat s.st

theorem State.beginFrame_tone_iff (s : State) (keys : Word) : (s.beginFrame keys).tone = true ↔ s.st ≠ 0 :=
  bne_iff_ne

theorem State.beginFrame_budget (s : State) (keys : Word) : (s.beginFrame keys).budget = s.budget + 16666 := rfl

/-- The loop condition is checked on the budget the frame starts with. -/
theorem State.beginFrame_phase (s : State) (keys : Word) :
    (s.beginFrame keys).phase = loopPhase (s.beginFrame keys).budget := rfl

theorem State.frame_takeRequest_beginFrame (s : State) (keys : Word) (later : List HostRequest) :
    Frame [.keys, .dt, .st, .tone, .budget, .phase, .requests, .reply] s
      (({ s with requests := later } : State).beginFrame keys) := by
  intro p hp
  cases p
  case keys | dt | st | tone | budget | phase | requests | reply => simp at hp
  all_goals simp [Part.Same, State.beginFrame, State.readV]

theorem State.frame_endFrame (s : State) : Frame [.phase, .reply] s s.endFrame := by
  intro p hp
  cases p
  case phase | reply => simp at hp
  all_goals simp [Part.Same, State.endFrame, State.readV]

theorem State.frame_takeRequest_readFramebuffer (s : State) (later : List HostRequest) :
    Frame [.requests, .reply] s ({ s with requests := later } : State).readFramebuffer := by
  intro p hp
  cases p
  case requests | reply => simp at hp
  all_goals simp [Part.Same, State.readFramebuffer, State.readV]

end Machine

open Machine

/-- Settles O41: the step is `State.beginFrame`, whose timers are `countDown` and whose phase is the loop condition on
the new budget, of which `loopPhase` has one case for each sign. -/
theorem frameStart : Obligations.FrameStart := by
  unfold Obligations.FrameStart
  intro s keys later hidle hrun hreq
  have hstep : step s = .next (({ s with requests := later } : State).beginFrame keys) := by
    rw [step_idle hidle, hostTurn_stepFrame hrun hreq]
  refine ⟨_, hstep, rfl, State.beginFrame_dt_toNat _ keys, State.beginFrame_st_toNat _ keys,
    State.beginFrame_tone_iff _ keys, State.beginFrame_budget _ keys, fun hpos => ?fetches, fun hnonpos => ?completes,
    rfl, s.frame_takeRequest_beginFrame keys later⟩
  case fetches => rw [State.beginFrame_phase, loopPhase_pos hpos]
  case completes => rw [State.beginFrame_phase, loopPhase_nonpos hnonpos]

/-- Settles O42: the step is `State.endFrame`, which writes phase and reply only. -/
theorem frameReturn : Obligations.FrameReturn := by
  unfold Obligations.FrameReturn
  intro s hcomplete hrun
  exact ⟨s.endFrame, step_frameComplete hcomplete hrun, rfl, rfl, s.frame_endFrame⟩

/-- Settles O49: the answer is FB itself, and status is not looked at. -/
theorem readFramebufferAnswers : Obligations.ReadFramebufferAnswers := by
  unfold Obligations.ReadFramebufferAnswers
  intro s later hidle hreq
  have hstep : step s = .next ({ s with requests := later } : State).readFramebuffer := by
    rw [step_idle hidle, hostTurn_readFramebuffer hreq]
  exact ⟨_, hstep, rfl, s.frame_takeRequest_readFramebuffer later, s.fb, rfl, fun _ => rfl⟩

end Sys2Proof
end

section
/-! The decoder and the encoder are inverse to each other (30_encoding.md, sections 1 to 3): what each class decodes to,
and the word of each instruction. -/

namespace Sys2Proof

/-! ### What a class decodes to -/

theorem decode_of_fieldOp_2 {w : Word} (hop : fieldOp w = 0x2) : decode w = .instr (.call (fieldNnn w)) := by
  simp [decode, hop]

theorem decode_of_fieldOp_5 {w : Word} (hop : fieldOp w = 0x5) : decode w = decodeClass5 w := by
  simp [decode, hop]

theorem decode_of_fieldOp_9 {w : Word} (hop : fieldOp w = 0x9) : decode w = decodeClass9 w := by
  simp [decode, hop]

theorem decode_of_fieldOp_B {w : Word} (hop : fieldOp w = 0xB) : decode w = .instr (.jpV0 (fieldNnn w)) := by
  simp [decode, hop]

theorem decode_of_fieldOp_C {w : Word} (hop : fieldOp w = 0xC) :
    decode w = .instr (.rnd (fieldX w) (fieldKk w)) := by
  simp [decode, hop]

theorem decode_of_fieldOp_D {w : Word} (hop : fieldOp w = 0xD) :
    decode w = .instr (.drw (fieldX w) (fieldY w) (fieldN w)) := by
  simp [decode, hop]

theorem decode_encXYN_8 (x y n : Nibble) : decode (encXYN 0x8 x y n) = decodeClass8 (encXYN 0x8 x y n) :=
  decode_of_fieldOp_8 (fieldOp_encXYN ..)

theorem decode_encXKK_E (x : Nibble) (kk : Byte) : decode (encXKK 0xE x kk) = decodeClassE (encXKK 0xE x kk) :=
  decode_of_fieldOp_E (fieldOp_encXKK ..)

theorem decode_encXKK_F (x : Nibble) (kk : Byte) : decode (encXKK 0xF x kk) = decodeClassF (encXKK 0xF x kk) :=
  decode_of_fieldOp_F (fieldOp_encXKK ..)

/-! ### The words of the instructions -/

theorem decode_encNNN_call (nnn : Addr) : decode (encNNN 0x2 nnn) = .instr (.call nnn) := by
  rw [decode_of_fieldOp_2 (fieldOp_encNNN ..), fieldNnn_encNNN]

theorem decode_encXYN_seReg (x y : Nibble) : decode (encXYN 0x5 x y 0x0) = .instr (.seReg x y) := by
  rw [decode_of_fieldOp_5 (fieldOp_encXYN ..)]
  simp [decodeClass5]

theorem decode_encXYN_sneReg (x y : Nibble) : decode (encXYN 0x9 x y 0x0) = .instr (.sneReg x y) := by
  rw [decode_of_fieldOp_9 (fieldOp_encXYN ..)]
  simp [decodeClass9]

theorem decode_encNNN_jpV0 (nnn : Addr) : decode (encNNN 0xB nnn) = .instr (.jpV0 nnn) := by
  rw [decode_of_fieldOp_B (fieldOp_encNNN ..), fieldNnn_encNNN]

theorem decode_encXKK_rnd (x : Nibble) (kk : Byte) : decode (encXKK 0xC x kk) = .instr (.rnd x kk) := by
  rw [decode_of_fieldOp_C (fieldOp_encXKK ..), fieldX_encXKK, fieldKk_encXKK]

theorem decode_encXYN_drw (x y n : Nibble) : decode (encXYN 0xD x y n) = .instr (.drw x y n) := by
  rw [decode_of_fieldOp_D (fieldOp_encXYN ..), fieldX_encXYN, fieldY_encXYN, fieldN_encXYN]

theorem wellFormed_sys_iff {nnn : Addr} : WellFormed (.sys nnn) = true ↔ nnn ≠ 0x0E0 ∧ nnn ≠ 0x0EE := by
  simp [WellFormed]

/-- The case split is by instruction; where a class has several, the function code selects among them. -/
theorem decode_encode {i : Instr} (hwf : WellFormed i = true) : decode (encode i) = .instr i := by
  cases i
  case cls => rfl
  case ret => rfl
  case sys nnn =>
    obtain ⟨hcls, hret⟩ := wellFormed_sys_iff.mp hwf
    exact decode_encNNN_sys hcls hret
  case jp nnn => exact decode_encNNN_jp nnn
  case call nnn => exact decode_encNNN_call nnn
  case seImm x kk => exact decode_encXKK_seImm x kk
  case sneImm x kk => exact decode_encXKK_sneImm x kk
  case seReg x y => exact decode_encXYN_seReg x y
  case ldImm x kk => exact decode_encXKK_ldImm x kk
  case addImm x kk => exact decode_encXKK_addImm x kk
  case sneReg x y => exact decode_encXYN_sneReg x y
  case ldI nnn => exact decode_encNNN_ldI nnn
  case jpV0 nnn => exact decode_encNNN_jpV0 nnn
  case rnd x kk => exact decode_encXKK_rnd x kk
  case drw x y n => exact decode_encXYN_drw x y n
  case skp | sknp =>
    rw [encode, decode_encXKK_E]
    simp [decodeClassE]
  case ldReg | orReg | andReg | xorReg | addReg | subReg | shr | subn | shl =>
    rw [encode, decode_encXYN_8]
    simp [decodeClass8]
  case ldVxDt | ldVxK | ldDtVx | ldStVx | addI | ldF | ldB | ldMemVx | ldVxMem =>
    rw [encode, decode_encXKK_F]
    simp [decodeClassF]

/-- Settles O1: `decode_encode` is the statement for one instruction. -/
theorem decodeOfEncode : Obligations.DecodeOfEncode := by
  unfold Obligations.DecodeOfEncode
  exact fun _ hwf => decode_encode hwf

end Sys2Proof
end

section
/-! Which words decode and which are InvalidOpcode (30_encoding.md R106, R112, R119): the classes, one by one. -/

namespace Sys2Proof

variable {w : Word}

theorem eq_ofNat_of_toNat_eq {n k : Nat} {v : BitVec n} (h : v.toNat = k) : v = BitVec.ofNat n k := by
  rw [← h, BitVec.ofNat_toNat, BitVec.setWidth_eq]

/-! ### The word of a decoded instruction -/

theorem encNNN_of_fieldOp {op : Nibble} (hop : fieldOp w = op) : encNNN op (fieldNnn w) = w :=
  hop ▸ encNNN_fields w

theorem encXKK_of_fieldOp {op : Nibble} (hop : fieldOp w = op) : encXKK op (fieldX w) (fieldKk w) = w :=
  hop ▸ encXKK_fields w

theorem encXYN_of_fieldOp {op : Nibble} (hop : fieldOp w = op) :
    encXYN op (fieldX w) (fieldY w) (fieldN w) = w :=
  hop ▸ encXYN_fields w

theorem encXKK_of_fieldKk {op : Nibble} {code : Byte} (hop : fieldOp w = op) (hkk : fieldKk w = code) :
    encXKK op (fieldX w) code = w :=
  hkk ▸ encXKK_of_fieldOp hop

theorem encXYN_of_fieldN {op n : Nibble} (hop : fieldOp w = op) (hn : fieldN w = n) :
    encXYN op (fieldX w) (fieldY w) n = w :=
  hn ▸ encXYN_of_fieldOp hop

/-- A word of class 0 whose nnn is that of CLS or RET is that word. -/
theorem encode_of_decodeClass0 {i : Instr} (hop : fieldOp w = 0x0) (h : decodeClass0 w = .instr i) :
    encode i = w ∧ WellFormed i = true := by
  unfold decodeClass0 at h
  split at h
  case isTrue hcls => cases h; exact ⟨hcls.symm, rfl⟩
  case isFalse hcls =>
    split at h
    case isTrue hret => cases h; exact ⟨hret.symm, rfl⟩
    case isFalse hret =>
      cases h
      have hword : encNNN 0x0 (fieldNnn w) = w := encNNN_of_fieldOp hop
      refine ⟨hword, wellFormed_sys_iff.mpr ⟨fun hnnn => hcls ?_, fun hnnn => hret ?_⟩⟩
      all_goals rw [hnnn] at hword; exact hword.symm

theorem encode_of_decodeClass5 {i : Instr} (hop : fieldOp w = 0x5) (h : decodeClass5 w = .instr i) :
    encode i = w ∧ WellFormed i = true := by
  unfold decodeClass5 at h
  split at h
  case isTrue hn => cases h; exact ⟨encXYN_of_fieldN hop hn, rfl⟩
  case isFalse => cases h

theorem encode_of_decodeClass8 {i : Instr} (hop : fieldOp w = 0x8) (h : decodeClass8 w = .instr i) :
    encode i = w ∧ WellFormed i = true := by
  unfold decodeClass8 at h
  split at h
  case h_10 => cases h
  all_goals
    rename_i hn
    cases h
    exact ⟨encXYN_of_fieldN hop (BitVec.eq_of_toNat_eq hn), rfl⟩

theorem encode_of_decodeClass9 {i : Instr} (hop : fieldOp w = 0x9) (h : decodeClass9 w = .instr i) :
    encode i = w ∧ WellFormed i = true := by
  unfold decodeClass9 at h
  split at h
  case isTrue hn => cases h; exact ⟨encXYN_of_fieldN hop hn, rfl⟩
  case isFalse => cases h

theorem encode_of_decodeClassE {i : Instr} (hop : fieldOp w = 0xE) (h : decodeClassE w = .instr i) :
    encode i = w ∧ WellFormed i = true := by
  unfold decodeClassE at h
  split at h
  case h_3 => cases h
  all_goals
    rename_i hkk
    cases h
    exact ⟨encXKK_of_fieldKk hop (BitVec.eq_of_toNat_eq hkk), rfl⟩

theorem encode_of_decodeClassF {i : Instr} (hop : fieldOp w = 0xF) (h : decodeClassF w = .instr i) :
    encode i = w ∧ WellFormed i = true := by
  unfold decodeClassF at h
  split at h
  case h_10 => cases h
  all_goals
    rename_i hkk
    cases h
    exact ⟨encXKK_of_fieldKk hop (BitVec.eq_of_toNat_eq hkk), rfl⟩

/-- The split follows the arms of `decode`: a class with a decoder of its own goes to the lemma on that decoder, the
others are one format each. -/
theorem encode_of_decode {i : Instr} (h : decode w = .instr i) : encode i = w ∧ WellFormed i = true := by
  unfold decode at h
  split at h
  case h_17 => cases h
  all_goals
    rename_i hcode
    have hop := eq_ofNat_of_toNat_eq hcode
  case h_1 => exact encode_of_decodeClass0 hop h
  case h_6 => exact encode_of_decodeClass5 hop h
  case h_9 => exact encode_of_decodeClass8 hop h
  case h_10 => exact encode_of_decodeClass9 hop h
  case h_15 => exact encode_of_decodeClassE hop h
  case h_16 => exact encode_of_decodeClassF hop h
  case h_2 | h_3 | h_11 | h_12 => cases h; exact ⟨encNNN_of_fieldOp hop, rfl⟩
  case h_4 | h_5 | h_7 | h_8 | h_13 => cases h; exact ⟨encXKK_of_fieldOp hop, rfl⟩
  case h_14 => cases h; exact ⟨encXYN_of_fieldOp hop, rfl⟩

/-! ### The words that do not decode -/

theorem decodeClass0_ne_invalidOpcode (w w' : Word) : decodeClass0 w ≠ .invalidOpcode w' := by
  unfold decodeClass0
  split
  · simp
  · split <;> simp

theorem decodeClass5_eq_invalidOpcode_iff (w w' : Word) :
    decodeClass5 w = .invalidOpcode w' ↔ w' = w ∧ fieldN w ≠ 0 := by
  unfold decodeClass5
  split
  case isTrue hn => simp [hn]
  case isFalse hn => rw [Decoded.invalidOpcode.injEq, eq_comm, and_iff_left hn]

theorem decodeClass9_eq_invalidOpcode_iff (w w' : Word) :
    decodeClass9 w = .invalidOpcode w' ↔ w' = w ∧ fieldN w ≠ 0 := by
  unfold decodeClass9
  split
  case isTrue hn => simp [hn]
  case isFalse hn => rw [Decoded.invalidOpcode.injEq, eq_comm, and_iff_left hn]

/-- The last arm of `decodeClass8` is taken by the seven codes that are left of the sixteen. -/
theorem decodeClass8_eq_invalidOpcode_iff (w w' : Word) :
    decodeClass8 w = .invalidOpcode w' ↔
      w' = w ∧ fieldN w ∈ ([0x8, 0x9, 0xA, 0xB, 0xC, 0xD, 0xF] : List Nibble) := by
  unfold decodeClass8
  split
  case h_10 h0 h1 h2 h3 h4 h5 h6 h7 hE =>
    have hlt := (fieldN w).isLt
    have hmem : fieldN w ∈ ([0x8, 0x9, 0xA, 0xB, 0xC, 0xD, 0xF] : List Nibble) := by
      simp only [imp_false] at h0 h1 h2 h3 h4 h5 h6 h7 hE
      simp [← BitVec.toNat_inj]
      omega
    simp only [hmem, Decoded.invalidOpcode.injEq, and_true, eq_comm]
  all_goals
    rename_i hcode
    simp [← BitVec.toNat_inj, hcode]

/-- The split follows the arms of `decode`: in the classes 5, 8, 9, E and F the lemma on the class's decoder says which
words it rejects, and every other class rejects none. -/
theorem decode_eq_invalidOpcode_iff (w w' : Word) : decode w = .invalidOpcode w' ↔ w' = w ∧
    ((fieldOp w = 0x5 ∧ fieldN w ≠ 0) ∨
     (fieldOp w = 0x8 ∧ fieldN w ∈ ([0x8, 0x9, 0xA, 0xB, 0xC, 0xD, 0xF] : List Nibble)) ∨
     (fieldOp w = 0x9 ∧ fieldN w ≠ 0) ∨
     (fieldOp w = 0xE ∧ fieldKk w ∉ ([0x9E, 0xA1] : List Byte)) ∨
     (fieldOp w = 0xF ∧
       fieldKk w ∉ ([0x07, 0x0A, 0x15, 0x18, 0x1E, 0x29, 0x33, 0x55, 0x65] : List Byte))) := by
  unfold decode
  split
  case h_17 => have := (fieldOp w).isLt; simp only [imp_false] at *; omega
  all_goals
    rename_i hcode
    have hop := eq_ofNat_of_toNat_eq hcode
  case h_6 => rw [decodeClass5_eq_invalidOpcode_iff]; simp [hop]
  case h_9 => rw [decodeClass8_eq_invalidOpcode_iff]; simp [hop]
  case h_10 => rw [decodeClass9_eq_invalidOpcode_iff]; simp [hop]
  case h_15 => rw [decodeClassE_eq_invalidOpcode_iff]; simp [hop]
  case h_16 => rw [decodeClassF_eq_invalidOpcode_iff]; simp [hop]
  case h_1 => simp [hop, decodeClass0_ne_invalidOpcode]
  all_goals simp [hop]

/-- Settles O2: `encode_of_decode`, and by `decode_encode` a second instruction with the same word is the one it decodes
to. -/
theorem encodeOfDecode : Obligations.EncodeOfDecode := by
  unfold Obligations.EncodeOfDecode
  intro w i hdec
  obtain ⟨henc, hwf⟩ := encode_of_decode hdec
  refine ⟨henc, hwf, fun j hwfj hencj => ?unique⟩
  case unique =>
    have hj : decode w = .instr j := hencj ▸ decode_encode hwfj
    exact Decoded.instr.inj (hj.symm.trans hdec)

/-- Settles O4: `decode_eq_invalidOpcode_iff` is the table of R112. -/
theorem invalidWords : Obligations.InvalidWords := by
  unfold Obligations.InvalidWords
  exact decode_eq_invalidOpcode_iff

/-- Settles O5: each sample is one of the words of `decode_encode`, but the last, which the table of invalid words
has. -/
theorem sampleWordsDecode : Obligations.SampleWordsDecode := by
  unfold Obligations.SampleWordsDecode
  exact ⟨decode_encode (i := .sys 0xEE0) rfl, decode_encode (i := .ret) rfl, decode_encode (i := .jpV0 0x123) rfl,
    decode_encode (i := .sneReg 0xA 0xB) rfl, decode_encode (i := .subn 0xA 0xB) rfl,
    decode_encode (i := .ldVxMem 0xF) rfl, decode_encode (i := .drw 0x1 0x2 0xF) rfl,
    decode_encode (i := .sknp 0x4) rfl, (decode_eq_invalidOpcode_iff _ _).mpr ⟨rfl, .inl (by decide)⟩⟩

end Sys2Proof
end

section
/-! Frames put together from the frames of the named updates, and the control transfers JP V0, CALL and RET
(40_control_flow.md, section 2) and the skips on two registers (41_skips.md, section 2). -/

namespace Sys2Proof.Machine

/-! ### Frames -/

theorem Part.Same.trans {p : Part} {s t u : State} (hst : Part.Same s t p) (htu : Part.Same t u p) :
    Part.Same s u p := by
  cases p
  case mem => exact fun a => (htu a).trans (hst a)
  case v => exact fun x => (htu x).trans (hst x)
  case fb => exact fun b => (htu b).trans (hst b)
  case stack =>
    obtain ⟨hstackT, hspT⟩ := hst
    obtain ⟨hstackU, hspU⟩ := htu
    exact ⟨hstackU.trans hstackT, hspU.trans hspT⟩
  all_goals exact Eq.trans htu hst

theorem Frame.trans {ps qs : List Part} {s t u : State} (hst : Frame ps s t) (htu : Frame qs t u) :
    Frame (ps ++ qs) s u := by
  intro p hp
  rw [List.mem_append, not_or] at hp
  obtain ⟨hpst, hptu⟩ := hp
  exact (hst p hpst).trans (htu p hptu)

theorem Frame.mono {ps qs : List Part} {s t : State} (h : Frame ps s t) (hsub : ps ⊆ qs) : Frame qs s t :=
  fun p hp => h p fun hmem => hp (hsub hmem)

theorem Frame.refl (ps : List Part) (s : State) : Frame ps s s := by
  intro p _
  cases p
  case stack => exact ⟨rfl, rfl⟩
  case mem | v | fb => exact fun _ => rfl
  all_goals exact rfl

/-- An instruction that ends with pc <- pc + 2 has the frame of its update and pc beside it. -/
theorem Frame.advance {ps : List Part} {s t : State} (h : Frame ps s t) : Frame (ps ++ [.pc]) s t.advance :=
  h.trans t.frame_advance

/-! ### JP V0, CALL and RET -/

theorem exec_jpV0 (nnn : Addr) (s : State) :
    exec (.jpV0 nnn) s = .next (s.setPc (zextAddr nnn + zextByte (s.readV 0#4))) := rfl

/-- The target of JP V0 is exact: it has at most 13 bits (40_control_flow.md R145). -/
theorem zextAddr_add_zextByte_toNat (nnn : Addr) (b : Byte) :
    (zextAddr nnn + zextByte b).toNat = nnn.toNat + b.toNat := by
  have := nnn.isLt
  have := b.isLt
  rw [BitVec.toNat_add, zextAddr_toNat, zextByte_toNat]
  omega

/-- What a push leaves (40_control_flow.md R144). -/
def State.pushed (s : State) (h : s.sp.val < 16) : State :=
  { s with stack := s.stack.set s.sp.val (s.pc + 2) h, sp := ⟨s.sp.val + 1, by omega⟩ }

/-- What a pop leaves (40_control_flow.md R141). -/
def State.popped (s : State) (h : 0 < s.sp.val) : State :=
  { s with sp := ⟨s.sp.val - 1, by omega⟩, pc := s.stack[s.sp.val - 1]'(by omega) }

theorem State.pushReturn_eq_pushed {s : State} (h : s.sp.val < 16) : s.pushReturn = .ok (s.pushed h) :=
  s.pushReturn_ok h

theorem State.popReturn_eq_popped {s : State} (h : 0 < s.sp.val) : s.popReturn = .ok (s.popped h) :=
  s.popReturn_ok h

theorem exec_call (nnn : Addr) (s : State) :
    exec (.call nnn) s = complete s (s.pushReturn.map fun t => t.setPc (zextAddr nnn)) := rfl

theorem exec_ret (s : State) : exec .ret s = complete s s.popReturn := rfl

theorem exec_call_pushed {s : State} (nnn : Addr) (h : s.sp.val < 16) :
    exec (.call nnn) s = .next ((s.pushed h).setPc (zextAddr nnn)) := by
  rw [exec_call, State.pushReturn_eq_pushed h, Except.map, complete_ok]

theorem exec_ret_popped {s : State} (h : 0 < s.sp.val) : exec .ret s = .next (s.popped h) := by
  rw [exec_ret, State.popReturn_eq_popped h, complete_ok]

theorem exec_call_overflow {s : State} (nnn : Addr) (h : s.sp.val = 16) :
    exec (.call nnn) s = .next (s.raise (.stackOverflow s.pc)) := by
  rw [exec_call, s.pushReturn_error h, Except.map, complete_error]

theorem exec_ret_underflow {s : State} (h : s.sp.val = 0) :
    exec .ret s = .next (s.raise (.stackUnderflow s.pc)) := by
  rw [exec_ret, s.popReturn_error h, complete_error]

theorem State.pushed_stack (s : State) (h : s.sp.val < 16) (j : Fin 16) :
    (s.pushed h).stack[j] = if j.val = s.sp.val then s.pc + 2 else s.stack[j] := by
  simp only [State.pushed, Fin.getElem_fin, Vector.getElem_set, eq_comm]

theorem State.popped_pc {s : State} (h : 0 < s.sp.val) {j : Fin 16} (hj : s.sp.val = j.val + 1) :
    (s.popped h).pc = s.stack[j] := by
  simp [State.popped, hj]

theorem State.frame_pushed (s : State) (h : s.sp.val < 16) : Frame [.stack] s (s.pushed h) := by
  intro p hp
  cases p
  case stack => simp at hp
  all_goals simp [Part.Same, State.pushed, State.readV]

theorem State.frame_popped (s : State) (h : 0 < s.sp.val) : Frame [.pc, .stack] s (s.popped h) := by
  intro p hp
  cases p
  case pc | stack => simp at hp
  all_goals simp [Part.Same, State.popped, State.readV]

theorem exec_seReg (x y : Nibble) (s : State) :
    exec (.seReg x y) s = .next (s.skipIf (s.readV x == s.readV y)) := rfl

theorem exec_sneReg (x y : Nibble) (s : State) :
    exec (.sneReg x y) s = .next (s.skipIf (s.readV x != s.readV y)) := rfl

end Sys2Proof.Machine

namespace Sys2Proof

open Machine

/-- Settles O7: the meaning is one write of pc, and its sum does not wrap. -/
theorem jumpV0Exact : Obligations.JumpV0Exact := by
  unfold Obligations.JumpV0Exact
  intro nnn s
  exact ⟨_, exec_jpV0 nnn s, zextAddr_add_zextByte_toNat nnn _, s.frame_setPc _⟩

/-- Settles O8: CALL is a push and then a write of pc. -/
theorem callPushesReturnAddress : Obligations.CallPushesReturnAddress := by
  unfold Obligations.CallPushesReturnAddress
  intro nnn s hsp
  have hframe : Frame ([.stack] ++ [.pc]) s ((s.pushed hsp).setPc (zextAddr nnn)) :=
    (s.frame_pushed hsp).trans (State.frame_setPc _ _)
  exact ⟨_, exec_call_pushed nnn hsp, zextAddr_toNat nnn, rfl, s.pushed_stack hsp, hframe.mono (by decide)⟩

/-- Settles O9: RET is a pop. -/
theorem returnPopsAddress : Obligations.ReturnPopsAddress := by
  unfold Obligations.ReturnPopsAddress
  intro s j hj
  have hsp : 0 < s.sp.val := by omega
  have hval : (s.popped hsp).sp.val = j.val := by simp [State.popped, hj]
  exact ⟨_, exec_ret_popped hsp, State.popped_pc hsp hj, hval, rfl, s.frame_popped hsp⟩

/-- Settles O10: each stack operation checks SP before it writes. -/
theorem stackErrors : Obligations.StackErrors := by
  unfold Obligations.StackErrors
  exact ⟨fun nnn s hsp => ⟨_, exec_call_overflow nnn hsp, s.raise_raised _⟩,
    fun s hsp => ⟨_, exec_ret_underflow hsp, s.raise_raised _⟩⟩

/-- Settles O11: the RET pops the entry at the SP before the CALL, where the CALL stored pc + 2. -/
theorem callThenReturn : Obligations.CallThenReturn := by
  unfold Obligations.CallThenReturn
  intro nnn s hsp
  refine ⟨_, exec_call_pushed nnn hsp, fun u hstack hspu => ?_⟩
  rw [State.setPc_stack] at hstack
  rw [State.setPc_sp] at hspu
  have hval : u.sp.val = s.sp.val + 1 := congrArg Fin.val hspu
  have hpos : 0 < u.sp.val := by omega
  refine ⟨_, exec_ret_popped hpos, ?pc, ?sp⟩
  case pc => rw [State.popped_pc hpos (j := ⟨s.sp.val, hsp⟩) hval, hstack, State.pushed_stack, if_pos rfl]
  case sp => exact Fin.ext (by simp [State.popped, hval])

/-- Settles O13: each meaning is one skip on its comparison. -/
theorem skipsOnRegisters : Obligations.SkipsOnRegisters := by
  unfold Obligations.SkipsOnRegisters
  intro x y s
  refine ⟨⟨_, exec_seReg x y s, ?sePc, s.frame_skipIf _⟩, ⟨_, exec_sneReg x y s, ?snePc, s.frame_skipIf _⟩⟩
  case sePc => simp only [State.skipIf_pc, beq_iff_eq]
  case snePc => simp only [State.skipIf_pc, bne_iff_ne]

end Sys2Proof
end

section
/-! The results with a flag (42_register_alu.md R190, R197 to R201) and RND (R202): one register write, and VF last. -/

namespace Sys2Proof.Machine

theorem exec_addReg (x y : Nibble) (s : State) : exec (.addReg x y) s =
    .next (s.writeVFlag x (addResult (s.readV x) (s.readV y)) (addCarry (s.readV x) (s.readV y))).advance := rfl

theorem exec_subReg (x y : Nibble) (s : State) : exec (.subReg x y) s =
    .next (s.writeVFlag x (subResult (s.readV x) (s.readV y)) (subNotBorrow (s.readV x) (s.readV y))).advance := rfl

theorem exec_shr (x y : Nibble) (s : State) : exec (.shr x y) s =
    .next (s.writeVFlag x (shrResult (s.readV x)) (shrBitOut (s.readV x))).advance := rfl

theorem exec_subn (x y : Nibble) (s : State) : exec (.subn x y) s =
    .next (s.writeVFlag x (subResult (s.readV y) (s.readV x)) (subNotBorrow (s.readV y) (s.readV x))).advance := rfl

theorem exec_shl (x y : Nibble) (s : State) : exec (.shl x y) s =
    .next (s.writeVFlag x (shlResult (s.readV x)) (shlBitOut (s.readV x))).advance := rfl

theorem exec_rnd (x : Nibble) (kk : Byte) (s : State) : exec (.rnd x kk) s =
    .next ((s.setRng (Config.rngNext s.rng).2).writeV x ((Config.rngNext s.rng).1 &&& kk)).advance := rfl

theorem State.frame_writeV (s : State) (x : Nibble) (b : Byte) : Frame [.v] s (s.writeV x b) := by
  intro p hp
  cases p
  case v => simp at hp
  all_goals simp [Part.Same]

theorem State.frame_writeVFlag (s : State) (x : Nibble) (r f : Byte) : Frame [.v] s (s.writeVFlag x r f) :=
  ((s.frame_writeV x r).trans (State.frame_writeV _ 0xF#4 f)).mono (by decide)

theorem State.frame_setRng (s : State) (r : RngState) : Frame [.rng] s (s.setRng r) := by
  intro p hp
  cases p
  case rng => simp at hp
  all_goals simp [Part.Same]

/-- What an instruction does whose meaning is a result and a flag: VF holds the flag, also where x = F (R190). -/
theorem exec_writes_result_and_flag {i : Instr} {s : State} {x : Nibble} {r f : Byte}
    (hexec : exec i s = .next (s.writeVFlag x r f).advance) :
    ∃ t, exec i s = .next t ∧ t.pc = s.pc + 2 ∧ (x ≠ 0xF#4 → t.readV x = r) ∧ t.readV 0xF#4 = f ∧
      (∀ q, q ≠ x → q ≠ 0xF#4 → t.readV q = s.readV q) ∧ Frame [.v, .pc] s t := by
  refine ⟨_, hexec, rfl, fun hx => ?result, ?flag, fun q hqx hqF => ?others, (s.frame_writeVFlag x r f).advance⟩
  case result => rw [State.advance_readV, State.writeVFlag_readV, if_neg hx, if_pos rfl]
  case flag => rw [State.advance_readV, State.writeVFlag_readV, if_pos rfl]
  case others => rw [State.advance_readV, State.writeVFlag_readV, if_neg hqF, if_neg hqx]

theorem flagByte_toNat (c : Prop) [Decidable c] : (flagByte (decide c)).toNat = if c then 1 else 0 := by
  by_cases h : c <;> simp [flagByte, h]

theorem subResult_toNat_int (a b : Byte) : ((subResult a b).toNat : Int) = ((a.toNat : Int) - b.toNat) % 256 := by
  have := b.isLt
  rw [subResult_toNat]
  omega

/-- What an instruction does whose meaning is a difference and NOT borrow (R198, R200). -/
theorem exec_subtracts {i : Instr} {s : State} {x : Nibble} {a b : Byte}
    (hexec : exec i s = .next (s.writeVFlag x (subResult a b) (subNotBorrow a b)).advance) :
    ∃ t, exec i s = .next t ∧ t.pc = s.pc + 2 ∧
      (x ≠ 0xF#4 → ((t.readV x).toNat : Int) = ((a.toNat : Int) - b.toNat) % 256) ∧
      (t.readV 0xF#4).toNat = (if b.toNat ≤ a.toNat then 1 else 0) ∧
      (∀ q, q ≠ x → q ≠ 0xF#4 → t.readV q = s.readV q) ∧ Frame [.v, .pc] s t := by
  obtain ⟨t, hexec, hpc, hresult, hflag, hothers, hframe⟩ := exec_writes_result_and_flag hexec
  refine ⟨t, hexec, hpc, fun hx => ?difference, ?notBorrow, hothers, hframe⟩
  case difference => rw [hresult hx, subResult_toNat_int]
  case notBorrow => rw [hflag, subNotBorrow, flagByte_toNat]

end Sys2Proof.Machine

namespace Sys2Proof

open Machine

/-- Settles O16: the result is `addResult` and the flag `addCarry`. -/
theorem addWithCarry : Obligations.AddWithCarry := by
  unfold Obligations.AddWithCarry
  intro x y s
  obtain ⟨t, hexec, hpc, hresult, hflag, hothers, hframe⟩ := exec_writes_result_and_flag (exec_addReg x y s)
  refine ⟨t, hexec, hpc, fun hx => ?sum, ?carry, hothers, hframe⟩
  case sum => rw [hresult hx, addResult_toNat]
  case carry => rw [hflag, addCarry, flagByte_toNat]

/-- Settles O17: both are subtractions, SUBN with the operands the other way round. -/
theorem subtractWithNotBorrow : Obligations.SubtractWithNotBorrow := by
  unfold Obligations.SubtractWithNotBorrow
  exact fun x y s => ⟨exec_subtracts (exec_subReg x y s), exec_subtracts (exec_subn x y s)⟩

/-- Settles O18: the results are `shrResult` and `shlResult` of Vx, the flags the bit each shift moves out. -/
theorem shiftsWithBitOut : Obligations.ShiftsWithBitOut := by
  unfold Obligations.ShiftsWithBitOut
  intro x y s
  constructor
  case left =>
    obtain ⟨t, hexec, hpc, hresult, hflag, hothers, hframe⟩ := exec_writes_result_and_flag (exec_shr x y s)
    refine ⟨t, hexec, hpc, fun hx => ?half, ?bit0, hothers, hframe⟩
    case half => rw [hresult hx, shrResult_toNat]
    case bit0 => rw [hflag, shrBitOut_toNat]
  case right =>
    obtain ⟨t, hexec, hpc, hresult, hflag, hothers, hframe⟩ := exec_writes_result_and_flag (exec_shl x y s)
    refine ⟨t, hexec, hpc, fun hx => ?double, ?bit7, hothers, hframe⟩
    case double => rw [hresult hx, shlResult_toNat]
    case bit7 => rw [hflag, shlBitOut_toNat]

/-- Settles O19: the meaning is one write of the generator and one of Vx, whatever kk is. -/
theorem randomDrawsOnce : Obligations.RandomDrawsOnce := by
  unfold Obligations.RandomDrawsOnce
  intro x kk s
  have hframe : Frame ([.rng] ++ [.v] ++ [.pc]) s
      ((s.setRng (Config.rngNext s.rng).2).writeV x ((Config.rngNext s.rng).1 &&& kk)).advance :=
    ((s.frame_setRng _).trans (State.frame_writeV _ _ _)).advance
  refine ⟨_, exec_rnd x kk s, rfl, fun r => ?readV, rfl, hframe.mono (by decide)⟩
  case readV => rw [State.advance_readV, State.writeV_readV, State.setRng_readV]

end Sys2Proof
end

section
/-! I and the glyph address (43_index_memory.md, section 2), CLS (44_display.md R270), the keypad and the timers
(45_keys_timers.md, sections 1 and 2). -/

namespace Sys2Proof.Machine

theorem exec_addI (x : Nibble) (s : State) :
    exec (.addI x) s = .next (s.setI (s.i + zextByte (s.readV x))).advance := rfl

theorem exec_ldF (x : Nibble) (s : State) :
    exec (.ldF x) s = .next (s.setI (glyphAddress (glyphDigit s.params.glyphIndexMode (s.readV x)))).advance := rfl

theorem exec_cls (s : State) : exec .cls s = .next (s.setFb (Vector.replicate 256 0)).advance := rfl

theorem exec_skp (x : Nibble) (s : State) : exec (.skp x) s =
    complete s ((keyDown s.params.keyRangePolicy s.keys (s.readV x)).map fun down => s.skipIf down) := rfl

theorem exec_sknp (x : Nibble) (s : State) : exec (.sknp x) s =
    complete s ((keyDown s.params.keyRangePolicy s.keys (s.readV x)).map fun down => s.skipIf (!down)) := rfl

theorem exec_ldVxDt (x : Nibble) (s : State) : exec (.ldVxDt x) s = .next (s.writeV x s.dt).advance := rfl

theorem exec_ldVxK_some {x : Nibble} {s : State} {k : Nat} (h : firstKeyDown s.keys = some k) :
    exec (.ldVxK x) s = .next (s.writeV x (BitVec.ofNat 8 k)).advance := by
  simp only [exec, execLdVxK, h]

theorem exec_ldVxK_none {x : Nibble} {s : State} (h : firstKeyDown s.keys = none) :
    exec (.ldVxK x) s = .next s := by
  simp only [exec, execLdVxK, h]

theorem exec_ldDtVx (x : Nibble) (s : State) : exec (.ldDtVx x) s = .next (s.setDt (s.readV x)).advance := rfl

theorem exec_ldStVx (x : Nibble) (s : State) : exec (.ldStVx x) s = .next (s.setSt (s.readV x)).advance := rfl

theorem State.frame_setFb (s : State) (f : Framebuffer) : Frame [.fb] s (s.setFb f) := by
  intro p hp
  cases p
  case fb => simp at hp
  all_goals simp [Part.Same]

theorem State.frame_setDt (s : State) (b : Byte) : Frame [.dt] s (s.setDt b) := by
  intro p hp
  cases p
  case dt => simp at hp
  all_goals simp [Part.Same]

theorem State.frame_setSt (s : State) (b : Byte) : Frame [.st] s (s.setSt b) := by
  intro p hp
  cases p
  case st => simp at hp
  all_goals simp [Part.Same]

/-- The low nibble of a byte, as the mask 0x0F takes it. -/
theorem and_0xF_toNat (b : Byte) : (b &&& 0x0F).toNat = b.toNat % 16 := by
  rw [BitVec.toNat_and]
  exact Nat.and_two_pow_sub_one_eq_mod b.toNat 4

theorem glyphAddress_toNat {d : Nat} (h : d < 256) : (glyphAddress d).toNat = 5 * d := by
  rw [glyphAddress, BitVec.toNat_ofNat, Config.glyphBase]
  omega

/-- A key skip whose key number has an answer is a skip on that answer, SKNP on its negation. -/
theorem exec_key_skips {x : Nibble} {s : State} {down : Bool}
    (h : keyDown s.params.keyRangePolicy s.keys (s.readV x) = .ok down) :
    exec (.skp x) s = .next (s.skipIf down) ∧ exec (.sknp x) s = .next (s.skipIf (!down)) := by
  rw [exec_skp, exec_sknp, h]
  exact ⟨rfl, rfl⟩

theorem exec_key_skips_error {x : Nibble} {s : State} {e : FatalError}
    (h : keyDown s.params.keyRangePolicy s.keys (s.readV x) = .error e) :
    exec (.skp x) s = .next (s.raise e) ∧ exec (.sknp x) s = .next (s.raise e) := by
  rw [exec_skp, exec_sknp, h]
  exact ⟨rfl, rfl⟩

theorem State.skipIf_not_pc (s : State) (c : Bool) :
    (s.skipIf (!c)).pc = if c then s.pc + 2 else s.pc + 4 := by
  cases c <;> rfl

end Sys2Proof.Machine

namespace Sys2Proof

open Machine

/-- Settles O21: each meaning is one write of I; the digit of LD F is the low nibble or the whole byte. -/
theorem addIndexAndGlyphAddress : Obligations.AddIndexAndGlyphAddress := by
  unfold Obligations.AddIndexAndGlyphAddress
  intro x s
  refine ⟨⟨_, exec_addI x s, rfl, ?sum, s.frame_setI_advance _⟩,
    ⟨_, exec_ldF x s, rfl, fun hmode => ?mask4, fun hmode => ?full, s.frame_setI_advance _⟩⟩
  case sum => rw [State.advance_i, State.setI_i, BitVec.toNat_add, zextByte_toNat]
  case mask4 =>
    rw [State.advance_i, State.setI_i, hmode, glyphDigit, and_0xF_toNat, glyphAddress_toNat (by omega)]
  case full => rw [State.advance_i, State.setI_i, hmode, glyphDigit, glyphAddress_toNat (s.readV x).isLt]

/-- Settles O27: the meaning is one write of FB, with the framebuffer that reads as 0. -/
theorem clearDisplay : Obligations.ClearDisplay := by
  unfold Obligations.ClearDisplay
  exact fun s => ⟨_, exec_cls s, rfl, fbRead_replicate, (s.frame_setFb _).advance⟩

/-- Settles O31: up to F the answer is the key's bit, under every policy. -/
theorem keySkips : Obligations.KeySkips := by
  unfold Obligations.KeySkips
  intro x s hkey
  obtain ⟨hskp, hsknp⟩ := exec_key_skips (x := x) (keyDown_in_range hkey)
  exact ⟨⟨_, hskp, rfl, s.frame_skipIf _⟩, ⟨_, hsknp, s.skipIf_not_pc _, s.frame_skipIf _⟩⟩

/-- Settles O32: one case for each policy. -/
theorem keyNumberOutOfRange : Obligations.KeyNumberOutOfRange := by
  unfold Obligations.KeyNumberOutOfRange
  intro x s hkey
  refine ⟨fun hpolicy => ?fatal, fun hpolicy => ?mask4, fun hpolicy => ?notPressed⟩
  case fatal =>
    obtain ⟨hskp, hsknp⟩ := exec_key_skips_error (x := x) (s := s) (by rw [hpolicy]; exact keyDown_fatal hkey)
    exact ⟨⟨_, hskp, s.raise_raised _⟩, ⟨_, hsknp, s.raise_raised _⟩⟩
  case mask4 =>
    obtain ⟨hskp, hsknp⟩ := exec_key_skips (x := x) (s := s) (by rw [hpolicy]; exact keyDown_mask4 hkey)
    rw [and_0xF_toNat] at hskp hsknp
    exact ⟨⟨_, hskp, rfl, s.frame_skipIf _⟩, ⟨_, hsknp, s.skipIf_not_pc _, s.frame_skipIf _⟩⟩
  case notPressed =>
    obtain ⟨hskp, hsknp⟩ := exec_key_skips (x := x) (s := s) (by rw [hpolicy]; exact keyDown_notPressed hkey)
    exact ⟨⟨_, hskp, rfl, s.frame_skipIf _⟩, ⟨_, hsknp, rfl, s.frame_skipIf _⟩⟩

/-- Settles O33: the scan finds the lowest key down, or none. -/
theorem waitForKey : Obligations.WaitForKey := by
  unfold Obligations.WaitForKey
  intro x s
  refine ⟨decode_encode (i := .ldVxK x) rfl, fun k hk hdown hlower => ?found, fun hup => ?none⟩
  case found =>
    have hscan : firstKeyDown s.keys = some k := firstKeyDown_some.mpr ⟨hk, hdown, hlower⟩
    obtain ⟨t, hexec, hpc, hreadV, hframe⟩ := exec_writes_register (exec_ldVxK_some (x := x) hscan)
    refine ⟨t, hexec, hpc, ?key, fun r hr => ?others, hframe⟩
    case key =>
      rw [hreadV, if_pos rfl, BitVec.toNat_ofNat]
      omega
    case others => rw [hreadV, if_neg hr]
  case none => exact exec_ldVxK_none (firstKeyDown_none.mpr hup)

/-- Settles O34: the meaning is one register write. -/
theorem readDelayTimer : Obligations.ReadDelayTimer := by
  unfold Obligations.ReadDelayTimer
  exact fun x s => ⟨decode_encode (i := .ldVxDt x) rfl, exec_writes_register (exec_ldVxDt x s)⟩

/-- Settles O35: each meaning is one write of its timer. -/
theorem writeTimers : Obligations.WriteTimers := by
  unfold Obligations.WriteTimers
  exact fun x s => ⟨⟨_, exec_ldDtVx x s, rfl, rfl, (s.frame_setDt _).advance⟩,
    ⟨_, exec_ldStVx x s, rfl, rfl, (s.frame_setSt _).advance⟩⟩

end Sys2Proof
end

section
/-! The memory transfers (43_index_memory.md, sections 1 and 2), LoadProgram (70_reset_and_hazards.md, section 2), and
the canonical form of memory (20_memory.md, section 1; log 29). -/

namespace Sys2Proof.Machine

theorem exec_ldB (x : Nibble) (s : State) : exec (.ldB x) s =
    complete s ((storeBytes s.mem s.dataBase (bcdDigits (s.readV x))).map fun m => (s.setMem m).advance) := rfl

theorem exec_ldMemVx (x : Nibble) (s : State) : exec (.ldMemVx x) s =
    complete s ((storeBytes s.mem s.dataBase (s.firstVs x)).map fun m => (s.setMem m).advance) := rfl

theorem exec_ldVxMem (x : Nibble) (s : State) : exec (.ldVxMem x) s =
    complete s ((loadBytes s.mem s.dataBase (x.toNat + 1)).map fun bs => (s.writeVs 0 bs).advance) := rfl

theorem State.frame_setMem (s : State) (m : Memory) : Frame [.mem] s (s.setMem m) := by
  intro p hp
  cases p
  case mem => simp at hp
  all_goals simp [Part.Same]

theorem State.frame_writeVs (s : State) (x : Nat) (bs : List Byte) : Frame [.v] s (s.writeVs x bs) := by
  rw [State.writeVs_eq]
  intro p hp
  cases p
  case v => simp at hp
  all_goals simp [Part.Same]

theorem State.writeVs_pc (s : State) (x : Nat) (bs : List Byte) : (s.writeVs x bs).pc = s.pc :=
  s.frame_writeVs x bs .pc (by decide)

/-- What an instruction does that stores the bytes `bs` from I on, inside memory. -/
theorem exec_stores {i : Instr} {s : State} {bs : List Byte}
    (hexec : exec i s = complete s ((storeBytes s.mem s.dataBase bs).map fun m => (s.setMem m).advance))
    (hfits : s.i.toNat + bs.length ≤ 4096) :
    ∃ t, exec i s = .next t ∧ t.pc = s.pc + 2 ∧
      (∀ k, k < bs.length → Memory.read t.mem (s.i.toNat + k) = bs.getD k 0) ∧
      (∀ a, a < s.i.toNat ∨ s.i.toNat + bs.length ≤ a → Memory.read t.mem a = Memory.read s.mem a) ∧
      Frame [.mem, .pc] s t := by
  obtain ⟨m, hstore, -, hread⟩ := storeBytes_ok bs s.mem s.dataBase hfits
  rw [hstore, Except.map, complete_ok] at hexec
  rw [State.dataBase] at hread
  refine ⟨_, hexec, rfl, fun k hk => ?stored, fun a ha => ?others, (s.frame_setMem m).advance⟩
  case stored =>
    rw [State.advance_mem, State.setMem_mem, hread, if_pos (by omega), Nat.add_sub_cancel_left]
  case others => rw [State.advance_mem, State.setMem_mem, hread, if_neg (by omega)]

/-- A store that leaves memory raises MemoryOutOfBounds with the first failing address. -/
theorem exec_stores_out_of_bounds {i : Instr} {s : State} {bs : List Byte}
    (hexec : exec i s = complete s ((storeBytes s.mem s.dataBase bs).map fun m => (s.setMem m).advance))
    (hne : bs ≠ []) (hleaves : 4096 < s.i.toNat + bs.length) :
    exec i s = .next (s.raise (.memoryOutOfBounds (max s.i.toNat 4096))) := by
  rw [hexec, storeBytes_error bs s.mem s.dataBase hne hleaves]
  rfl

theorem State.firstVs_ne_nil (s : State) (x : Nibble) : s.firstVs x ≠ [] :=
  List.ne_nil_of_length_eq_add_one (s.firstVs_length x)

theorem State.firstVs_getD_nibble (s : State) {x y : Nibble} (h : y.toNat ≤ x.toNat) :
    (s.firstVs x).getD y.toNat 0 = s.readV y := by
  rw [s.firstVs_getD x _ h, BitVec.ofNat_toNat, BitVec.setWidth_eq]

/-- The three digits at their places. -/
theorem bcdDigits_getD_toNat (b : Byte) :
    ((bcdDigits b).getD 0 0).toNat = b.toNat / 100 ∧ ((bcdDigits b).getD 1 0).toNat = b.toNat / 10 % 10 ∧
      ((bcdDigits b).getD 2 0).toNat = b.toNat % 10 := by
  have hb := b.isLt
  simp only [bcdDigits, List.getD_cons_zero, List.getD_cons_succ, BitVec.toNat_ofNat]
  omega

theorem exec_ldMemVx_stores {x : Nibble} {s : State} (hfits : s.i.toNat + x.toNat < 4096) :
    ∃ t, exec (.ldMemVx x) s = .next t ∧ t.pc = s.pc + 2 ∧
      (∀ y : Nibble, y.toNat ≤ x.toNat → Memory.read t.mem (s.i.toNat + y.toNat) = s.readV y) ∧
      (∀ a, a < s.i.toNat ∨ s.i.toNat + x.toNat < a → Memory.read t.mem a = Memory.read s.mem a) ∧
      Frame [.mem, .pc] s t := by
  have hlen := s.firstVs_length x
  obtain ⟨t, hexec, hpc, hstored, hothers, hframe⟩ := exec_stores (exec_ldMemVx x s) (by omega)
  refine ⟨t, hexec, hpc, fun y hy => ?_, fun a ha => hothers a (by omega), hframe⟩
  rw [hstored _ (by omega), s.firstVs_getD_nibble hy]

theorem exec_ldVxMem_loads {x : Nibble} {s : State} (hfits : s.i.toNat + x.toNat < 4096) :
    ∃ t, exec (.ldVxMem x) s = .next t ∧ t.pc = s.pc + 2 ∧
      (∀ y : Nibble, t.readV y =
        if y.toNat ≤ x.toNat then Memory.read s.mem (s.i.toNat + y.toNat) else s.readV y) ∧
      Frame [.v, .pc] s t := by
  have hload := loadBytes_ok (x.toNat + 1) s.mem s.dataBase hfits
  have hexec := exec_ldVxMem x s
  rw [hload, Except.map, complete_ok] at hexec
  refine ⟨_, hexec, congrArg (· + 2) (s.writeVs_pc 0 _), fun y => ?_, (s.frame_writeVs 0 _).advance⟩
  rw [State.advance_readV, State.writeVs_readV, List.length_map, List.length_range, Nat.sub_zero]
  by_cases hy : y.toNat ≤ x.toNat
  · have hlt : y.toNat < x.toNat + 1 := Nat.lt_succ_of_le hy
    rw [if_pos (by omega), if_pos hy]
    simp [List.getD_eq_getElem?_getD, hlt, State.dataBase]
  · rw [if_neg (by omega), if_neg hy]

theorem exec_ldVxMem_out_of_bounds {x : Nibble} {s : State} (h : 4096 ≤ s.i.toNat + x.toNat) :
    exec (.ldVxMem x) s = .next (s.raise (.memoryOutOfBounds (max s.i.toNat 4096))) := by
  have hleaves : Config.memSize < s.dataBase + (x.toNat + 1) := Nat.lt_succ_of_le h
  rw [exec_ldVxMem, loadBytes_error _ s.mem s.dataBase (Nat.succ_pos _) hleaves]
  rfl

/-! ### LoadProgram -/

theorem hostTurn_loadProgram {s : State} {bytes : List Byte} {later : List HostRequest} (hrun : s.status = .running)
    (hreq : s.requests = .loadProgram bytes :: later) :
    hostTurn s = .next (({ s with requests := later } : State).loadProgram bytes) := by
  simp only [hostTurn, hreq, hrun]

/-- What a load may change: memory, and the request and the reply of the transaction (log 23). -/
theorem State.frame_loaded (s : State) (m : Memory) (later : List HostRequest) (reply : Option HostReply) :
    Frame [.mem, .requests, .reply] s { s with mem := m, requests := later, reply := reply } := by
  intro p hp
  cases p
  case mem | requests | reply => simp at hp
  all_goals simp [Part.Same, State.readV]

/-! ### The canonical form -/

/-- A canonical memory lists no address below its first one. -/
theorem Memory.read_of_lt_wfFrom {m : Memory} {lo a : Nat} (hm : Memory.wfFrom lo m = true) (ha : a < lo) :
    Memory.read m a = Memory.unlisted a := by
  induction m generalizing lo with
  | nil => rfl
  | cons cell rest ih =>
    simp only [Memory.wfFrom, Bool.and_eq_true, decide_eq_true_eq] at hm
    obtain ⟨⟨⟨hlo, -⟩, -⟩, hrest⟩ := hm
    rw [Memory.read, if_neg (by omega)]
    exact ih hrest (by omega)

/-- A canonical memory's first pair does not read as an unlisted address would. -/
theorem Memory.read_head_ne_unlisted {rest : Memory} {lo a : Nat} {v : Byte}
    (hm : Memory.wfFrom lo ((a, v) :: rest) = true) : Memory.read ((a, v) :: rest) a ≠ Memory.unlisted a := by
  simp only [Memory.wfFrom, Bool.and_eq_true, bne_iff_ne] at hm
  obtain ⟨⟨-, hv⟩, -⟩ := hm
  rwa [Memory.read, if_pos rfl]

theorem Memory.wfFrom_tail {rest : Memory} {lo a : Nat} {v : Byte}
    (hm : Memory.wfFrom lo ((a, v) :: rest) = true) : Memory.wfFrom (a + 1) rest = true := by
  simp only [Memory.wfFrom, Bool.and_eq_true] at hm
  exact hm.2

/-- A canonical memory lists its first address, and so does one that reads the same. -/
theorem Memory.head_le_head {r r' : Memory} {lo a b : Nat} {v w : Byte}
    (hm : Memory.wfFrom lo ((a, v) :: r) = true) (hm' : Memory.wfFrom lo ((b, w) :: r') = true)
    (hread : ∀ c, Memory.read ((a, v) :: r) c = Memory.read ((b, w) :: r') c) : b ≤ a := by
  by_contra hlt
  apply Memory.read_head_ne_unlisted hm
  rw [hread, Memory.read, if_neg (by omega)]
  exact Memory.read_of_lt_wfFrom (Memory.wfFrom_tail hm') (by omega)

theorem Memory.eq_of_read_eq {m m' : Memory} {lo : Nat} (hm : Memory.wfFrom lo m = true)
    (hm' : Memory.wfFrom lo m' = true) (hread : ∀ a, Memory.read m a = Memory.read m' a) : m = m' := by
  induction m generalizing m' lo with
  | nil =>
    cases m' with
    | nil => rfl
    | cons cell r' => exact absurd (hread cell.1).symm (Memory.read_head_ne_unlisted hm')
  | cons cell r ih =>
    obtain ⟨a, v⟩ := cell
    cases m' with
    | nil => exact absurd (hread a) (Memory.read_head_ne_unlisted hm)
    | cons cell' r' =>
      obtain ⟨b, w⟩ := cell'
      have hab : a = b := Nat.le_antisymm (Memory.head_le_head hm' hm fun c => (hread c).symm)
        (Memory.head_le_head hm hm' hread)
      subst hab
      have hvw : v = w := by simpa [Memory.read] using hread a
      have htail : ∀ c, Memory.read r c = Memory.read r' c := by
        intro c
        by_cases hc : a = c
        · subst hc
          rw [Memory.read_of_lt_wfFrom (Memory.wfFrom_tail hm) (Nat.lt_succ_self a),
            Memory.read_of_lt_wfFrom (Memory.wfFrom_tail hm') (Nat.lt_succ_self a)]
        · simpa [Memory.read, hc] using hread c
      rw [hvw, ih (Memory.wfFrom_tail hm) (Memory.wfFrom_tail hm') htail]

end Sys2Proof.Machine

namespace Sys2Proof

open Machine

/-- Settles O22: the meaning stores the three digits. -/
theorem storeDecimalDigits : Obligations.StoreDecimalDigits := by
  unfold Obligations.StoreDecimalDigits
  intro x s
  refine ⟨fun hfits => ?inside, fun hleaves => ?outside⟩
  case inside =>
    obtain ⟨t, hexec, hpc, hstored, hothers, hframe⟩ := exec_stores (exec_ldB x s) hfits
    obtain ⟨hhundreds, htens, hones⟩ := bcdDigits_getD_toNat (s.readV x)
    refine ⟨t, hexec, hpc, ?_, ?_, ?_, hothers, hframe⟩
    · exact (congrArg BitVec.toNat (hstored 0 (by simp [bcdDigits]))).trans hhundreds
    · exact (congrArg BitVec.toNat (hstored 1 (by simp [bcdDigits]))).trans htens
    · exact (congrArg BitVec.toNat (hstored 2 (by simp [bcdDigits]))).trans hones
  case outside =>
    exact ⟨_, exec_stores_out_of_bounds (exec_ldB x s) (List.cons_ne_nil _ _) hleaves, s.raise_raised _⟩

/-- Settles O23: the meaning stores V0 to Vx. -/
theorem storeRegisters : Obligations.StoreRegisters := by
  unfold Obligations.StoreRegisters
  intro x s
  refine ⟨exec_ldMemVx_stores, fun hleaves => ⟨_, ?_, s.raise_raised _⟩⟩
  have hlen := s.firstVs_length x
  exact exec_stores_out_of_bounds (exec_ldMemVx x s) (s.firstVs_ne_nil x) (by omega)

/-- Settles O24: the meaning is a block register write of the bytes loaded. -/
theorem loadRegisters : Obligations.LoadRegisters := by
  unfold Obligations.LoadRegisters
  exact fun x s => ⟨exec_ldVxMem_loads,
    fun hleaves => ⟨_, exec_ldVxMem_out_of_bounds hleaves, s.raise_raised _⟩⟩

/-- Settles O25: the load reads the bytes the store wrote. -/
theorem storeThenLoadRegisters : Obligations.StoreThenLoadRegisters := by
  unfold Obligations.StoreThenLoadRegisters
  intro x s hfits
  obtain ⟨t, hexec, -, hstored, -, -⟩ := exec_ldMemVx_stores hfits
  refine ⟨t, hexec, fun u hmem hi => ?_⟩
  obtain ⟨r, hload, -, hreadV, -⟩ := exec_ldVxMem_loads (x := x) (s := u) (by rwa [hi])
  refine ⟨r, hload, fun y hy => ?_⟩
  rw [hreadV, if_pos hy, hmem, hi, hstored y hy]

/-- Settles O26: both bytes of the fetch are bytes the store wrote. -/
theorem fetchSeesStores : Obligations.FetchSeesStores := by
  unfold Obligations.FetchSeesStores
  intro x s pc hfits hfirst hsecond
  obtain ⟨t, hexec, -, hstored, -, -⟩ := exec_ldMemVx_stores hfits
  refine ⟨t, hexec, fun y hy => ?_⟩
  have hx := x.isLt
  have hsucc : (y + 1).toNat = y.toNat + 1 := by
    rw [BitVec.toNat_add, show (1 : Nibble).toNat = 1 from rfl]
    omega
  have hfetch : ((t.setPc pc).pc).toNat + 1 < 4096 := by
    rw [State.setPc_pc]
    omega
  rw [State.fetch_ok hfetch, State.setPc_mem, State.setPc_pc, ← hstored y (by omega), ← hstored (y + 1) (by omega),
    hsucc, ← Nat.add_assoc, hy]

/-- Settles O48: one case for each side of the limit. -/
theorem loadProgramWritesOrRejects : Obligations.LoadProgramWritesOrRejects := by
  unfold Obligations.LoadProgramWritesOrRejects
  intro s bytes later hidle hrun hreq
  have hstep : step s = .next (({ s with requests := later } : State).loadProgram bytes) := by
    rw [step_idle hidle, hostTurn_loadProgram hrun hreq]
  by_cases hfits : bytes.length ≤ 3584
  · obtain ⟨m, hload, -, hread⟩ := State.loadProgram_fits (s := { s with requests := later }) hfits
    rw [hload] at hstep
    exact ⟨_, hstep, rfl, s.frame_loaded m later _, fun _ => ⟨rfl, hread⟩, fun hlong => absurd hfits (by omega)⟩
  · rw [State.loadProgram_too_large (by omega)] at hstep
    exact ⟨_, hstep, rfl, s.frame_loaded s.mem later _, fun hshort => absurd hshort hfits,
      fun _ => ⟨rfl, fun _ => rfl⟩⟩

/-- Settles O55: the canonical form from address 0 on. -/
theorem memoryCanonical : Obligations.MemoryCanonical := by
  unfold Obligations.MemoryCanonical
  exact fun _ _ hm hm' hread => Memory.eq_of_read_eq hm hm' hread

end Sys2Proof
end

section
/-! DRW (44_display.md): the rows of a sprite fall on different rows of the framebuffer, so that BlitRow by BlitRow a
sprite inverts the pixels it covers and meets the lit ones among them. -/

namespace Sys2Proof.Machine

/-! ### The rows of a sprite -/

/-- The row of a sprite at Vy = `vy` that falls on the row `py` of the framebuffer (44_display.md R273). -/
def spriteRow (vy : Byte) (py : Fin 32) : Nat := (py.val + 32 - vy.toNat % 32) % 32

/-- `spriteCovers` for the `n` rows of a sprite from its row `k` on. -/
def rowsCover (m : Memory) (base : Nat) (vx vy : Byte) (k n : Nat) (px : Fin 64) (py : Fin 32) : Bool :=
  decide (k ≤ spriteRow vy py ∧ spriteRow vy py < k + n) &&
    rowCovers (Memory.read m (base + spriteRow vy py)) (drawColumn vx) px

section
variable {m : Memory} {base : Nat} {vx vy : Byte} {k n : Nat} {px : Fin 64} {py : Fin 32}

theorem spriteCovers_eq_rowsCover : spriteCovers m base vx vy n px py = rowsCover m base vx vy 0 n px py := by
  simp only [spriteCovers, rowsCover, rowCovers, spriteRow, drawColumn, Nat.zero_le, true_and, Nat.zero_add]
  rw [Bool.and_comm (decide (_ < 8)), Bool.and_assoc]
  rfl

theorem eq_drawRow_iff (hk : k < 32) : py = drawRow vy k ↔ spriteRow vy py = k := by
  simp only [drawRow, spriteRow, Fin.ext_iff]
  omega

theorem rowsCover_zero : rowsCover m base vx vy k 0 px py = false := by
  rw [rowsCover, decide_eq_false (by omega), Bool.false_and]

theorem rowsCover_drawRow (hk : k < 32) :
    rowsCover m base vx vy k (n + 1) px (drawRow vy k) =
      rowCovers (Memory.read m (base + k)) (drawColumn vx) px := by
  rw [rowsCover, (eq_drawRow_iff hk).mp rfl, decide_eq_true (by omega), Bool.true_and]

theorem rowsCover_succ_drawRow (hk : k < 32) : rowsCover m base vx vy (k + 1) n px (drawRow vy k) = false := by
  rw [rowsCover, (eq_drawRow_iff hk).mp rfl, decide_eq_false (by omega), Bool.false_and]

theorem rowsCover_of_ne_drawRow (hk : k < 32) (hpy : py ≠ drawRow vy k) :
    rowsCover m base vx vy k (n + 1) px py = rowsCover m base vx vy (k + 1) n px py := by
  rw [Ne, eq_drawRow_iff hk] at hpy
  rw [rowsCover, rowsCover]
  congr 2
  rw [eq_iff_iff]
  omega

/-- The pixels after the row `k` and then the others are those of all the rows together. -/
theorem pixel_blitRow_xor_rowsCover (hk : k < 32) (fb : Framebuffer) (px : Fin 64) (py : Fin 32) :
    (pixel (blitRow fb (Memory.read m (base + k)) (drawColumn vx) (drawRow vy k)).1 px py ^^
        rowsCover m base vx vy (k + 1) n px py) =
      (pixel fb px py ^^ rowsCover m base vx vy k (n + 1) px py) := by
  rw [blitRow_pixel]
  by_cases hpy : py = drawRow vy k
  · rw [hpy, rowsCover_drawRow hk, rowsCover_succ_drawRow hk, decide_eq_true rfl, Bool.true_and, Bool.xor_false]
  · rw [rowsCover_of_ne_drawRow hk hpy, decide_eq_false hpy, Bool.false_and, Bool.xor_false]

/-- A lit pixel that all the rows together cover is met by the row `k`, or by the others after it. -/
theorem rowsCover_meets_iff (hk : k < 32) (fb : Framebuffer) :
    (∃ px py, pixel fb px py = true ∧ rowsCover m base vx vy k (n + 1) px py = true) ↔
      (blitRow fb (Memory.read m (base + k)) (drawColumn vx) (drawRow vy k)).2 = true ∨
      ∃ px py, pixel (blitRow fb (Memory.read m (base + k)) (drawColumn vx) (drawRow vy k)).1 px py = true ∧
        rowsCover m base vx vy (k + 1) n px py = true := by
  rw [blitRow_hit]
  constructor
  · rintro ⟨px, py, hlit, hcover⟩
    by_cases hpy : py = drawRow vy k
    · subst hpy
      rw [rowsCover_drawRow hk] at hcover
      exact .inl ⟨px, hlit, hcover⟩
    · rw [rowsCover_of_ne_drawRow hk hpy] at hcover
      refine .inr ⟨px, py, ?_, hcover⟩
      rw [blitRow_pixel, decide_eq_false hpy, Bool.false_and, Bool.xor_false, hlit]
  · rintro (⟨px, hlit, hcover⟩ | ⟨px, py, hlit, hcover⟩)
    · exact ⟨px, drawRow vy k, hlit, by rw [rowsCover_drawRow hk, hcover]⟩
    · have hpy : py ≠ drawRow vy k := by
        rintro rfl
        rw [rowsCover_succ_drawRow hk] at hcover
        exact Bool.false_ne_true hcover
      rw [blitRow_pixel, decide_eq_false hpy, Bool.false_and, Bool.xor_false] at hlit
      exact ⟨px, py, hlit, by rw [rowsCover_of_ne_drawRow hk hpy, hcover]⟩

/-- Everything the rows `k` to `k + n - 1` of a sprite do, by induction on their number: at most 32 rows do not wrap
onto each other. -/
theorem drawRows_range' (fb : Framebuffer) (hit : Bool) (hrows : k + n ≤ 32) (hmem : n = 0 ∨ base + k + n ≤ 4096) :
    ∃ q, drawRows m base vx vy (List.range' k n) fb hit = .ok q ∧
      (∀ px py, pixel q.1 px py = (pixel fb px py ^^ rowsCover m base vx vy k n px py)) ∧
      (q.2 = true ↔ hit = true ∨ ∃ px py, pixel fb px py = true ∧ rowsCover m base vx vy k n px py = true) := by
  induction n generalizing k fb hit with
  | zero => exact ⟨(fb, hit), rfl, fun px py => by simp [rowsCover_zero], by simp [rowsCover_zero]⟩
  | succ n ih =>
    have hk : k < 32 := by omega
    rw [List.range'_succ, drawRows_cons _ fb hit (by omega)]
    obtain ⟨q, hdraw, hpixel, hhit⟩ := ih (k := k + 1) _ _ (by omega) (by omega)
    refine ⟨q, hdraw, fun px py => ?_, ?_⟩
    · rw [hpixel, pixel_blitRow_xor_rowsCover hk]
    · rw [hhit, rowsCover_meets_iff hk, Bool.or_eq_true, or_comm (b := hit = true), or_assoc]

end

/-! ### DRW -/

theorem exec_drw (x y n : Nibble) (s : State) : exec (.drw x y n) s =
    complete s ((drawRows s.mem s.dataBase (s.readV x) (s.readV y) (List.range n.toNat) s.fb false).map fun q =>
      ((s.setFb q.1).writeV 0xF#4 (flagByte q.2)).advance) := rfl

/-- What DRW does where its sprite bytes are inside memory. -/
theorem exec_drw_draws {x y n : Nibble} {s : State} (hmem : n = 0 ∨ s.i.toNat + n.toNat ≤ 4096) :
    ∃ t hit, exec (.drw x y n) s = .next t ∧ t.pc = s.pc + 2 ∧
      (∀ px py, pixel t.fb px py =
        (pixel s.fb px py ^^ spriteCovers s.mem s.i.toNat (s.readV x) (s.readV y) n.toNat px py)) ∧
      (hit = true ↔ ∃ px py, pixel s.fb px py = true ∧
        spriteCovers s.mem s.i.toNat (s.readV x) (s.readV y) n.toNat px py = true) ∧
      (∀ r, t.readV r = if r = 0xF#4 then flagByte hit else s.readV r) ∧ Frame [.fb, .v, .pc] s t := by
  have hn := n.isLt
  have hbytes : n.toNat = 0 ∨ s.dataBase + 0 + n.toNat ≤ 4096 := hmem.imp (congrArg BitVec.toNat) id
  obtain ⟨q, hdraw, hpixel, hhit⟩ := drawRows_range' (m := s.mem) (base := s.dataBase) (vx := s.readV x)
    (vy := s.readV y) (k := 0) s.fb false (by omega) hbytes
  have hexec := exec_drw x y n s
  rw [List.range_eq_range', hdraw, Except.map, complete_ok] at hexec
  refine ⟨_, q.2, hexec, rfl, ?pixels, ?hit, fun r => ?registers,
    ((s.frame_setFb _).trans (State.frame_writeV _ _ _)).advance⟩
  case pixels => simpa [spriteCovers_eq_rowsCover, State.dataBase] using hpixel
  case hit => simpa [spriteCovers_eq_rowsCover, State.dataBase] using hhit
  case registers => rw [State.advance_readV, State.writeV_readV, State.setFb_readV]

theorem exec_drw_out_of_bounds {x y n : Nibble} {s : State} (hn : n ≠ 0) (hleaves : 4096 < s.i.toNat + n.toNat) :
    exec (.drw x y n) s = .next (s.raise (.memoryOutOfBounds (max s.i.toNat 4096))) := by
  have hpos : 0 < n.toNat := Nat.pos_of_ne_zero fun h => hn (BitVec.eq_of_toNat_eq h)
  have hbytes : 4096 < s.dataBase + 0 + n.toNat := hleaves
  rw [exec_drw, List.range_eq_range', drawRows_error 0 n.toNat s.fb false hpos hbytes (.inl rfl)]
  rfl

end Sys2Proof.Machine

namespace Sys2Proof

open Machine

/-- Settles O28: `exec_drw_draws`, with the two values of the flag. -/
theorem drawInvertsCoveredPixels : Obligations.DrawInvertsCoveredPixels := by
  unfold Obligations.DrawInvertsCoveredPixels
  intro x y n s hmem
  obtain ⟨t, hit, hexec, hpc, hpixel, hhit, hreadV, hframe⟩ := exec_drw_draws (x := x) (y := y) hmem
  refine ⟨t, hexec, hpc, hpixel, fun hmet => ?collision, fun hunmet => ?none, fun r hr => ?others, hframe⟩
  case collision =>
    rw [hreadV, if_pos rfl, hhit.mpr hmet]
    rfl
  case none =>
    have hno : hit = false := by
      rw [Bool.eq_false_iff, Ne, hhit]
      rintro ⟨px, py, hlit, hcover⟩
      rw [hunmet px py hlit] at hcover
      exact Bool.false_ne_true hcover
    rw [hreadV, if_pos rfl, hno]
    rfl
  case others => rw [hreadV, if_neg hr]

/-- Settles O29: the first row outside memory stops the sprite. -/
theorem drawOutOfBounds : Obligations.DrawOutOfBounds := by
  unfold Obligations.DrawOutOfBounds
  exact fun _ _ _ s hn hleaves => ⟨_, exec_drw_out_of_bounds hn hleaves, s.raise_raised _⟩

/-- Settles O30: the second draw inverts the same pixels again, and a covered pixel is lit after the first draw exactly
where it was dark before. -/
theorem drawTwiceRestores : Obligations.DrawTwiceRestores := by
  unfold Obligations.DrawTwiceRestores
  intro x y n s hmem
  obtain ⟨t, -, hfirst, -, hpixelT, -, -, -⟩ := exec_drw_draws (x := x) (y := y) hmem
  refine ⟨t, hfirst, fun u hfb hum hi hx hy => ?_⟩
  obtain ⟨r, hit, hsecond, -, hpixelR, hhit, hreadV, -⟩ :=
    exec_drw_draws (x := x) (y := y) (n := n) (s := u) (by rwa [hi])
  rw [hfb, hum, hi, hx, hy] at hpixelR hhit
  refine ⟨r, hsecond, fun px py => ?restored, ?flag⟩
  case restored => rw [hpixelR, hpixelT, Bool.xor_assoc, Bool.xor_self, Bool.xor_false]
  case flag =>
    have hflag : r.readV 0xF#4 = 1 ↔ hit = true := by
      rw [hreadV, if_pos rfl]
      cases hit <;> decide
    rw [hflag, hhit]
    refine exists_congr fun px => exists_congr fun py => and_congr_left fun hcover => ?_
    rw [hpixelT, hcover, Bool.xor_true, Bool.not_eq_true']

end Sys2Proof
end

section
/-! All instructions at once (60_exceptions.md R370, 10_state.md R34, 70_reset_and_hazards.md, section 5): the errors
they raise, the parts they write, and that no effect depends on the costs. -/

namespace Sys2Proof.Machine

/-! ### What an instruction computes -/

/-- What the meaning of an instruction computes before a fatal error is taken. The eight instructions that can raise one
hand this result to `complete`; every other one computes the next state that its meaning answers. -/
def effect (i : Instr) (s : State) : Except FatalError State :=
  match i with
  | .ret => s.popReturn
  | .call nnn => s.pushReturn.map fun t => t.setPc (zextAddr nnn)
  | .drw x y n =>
    (drawRows s.mem s.dataBase (s.readV x) (s.readV y) (List.range n.toNat) s.fb false).map fun q =>
      ((s.setFb q.1).writeV 0xF#4 (flagByte q.2)).advance
  | .skp x => (keyDown s.params.keyRangePolicy s.keys (s.readV x)).map fun down => s.skipIf down
  | .sknp x => (keyDown s.params.keyRangePolicy s.keys (s.readV x)).map fun down => s.skipIf (!down)
  | .ldB x => (storeBytes s.mem s.dataBase (bcdDigits (s.readV x))).map fun m => (s.setMem m).advance
  | .ldMemVx x => (storeBytes s.mem s.dataBase (s.firstVs x)).map fun m => (s.setMem m).advance
  | .ldVxMem x => (loadBytes s.mem s.dataBase (x.toNat + 1)).map fun bs => (s.writeVs 0 bs).advance
  | i =>
    match exec i s with
    | .next t => .ok t
    | .fault _ | .refused _ => .ok s

theorem effect_ldVxK_some {x : Nibble} {s : State} {k : Nat} (h : firstKeyDown s.keys = some k) :
    effect (.ldVxK x) s = .ok (s.writeV x (BitVec.ofNat 8 k)).advance := by
  simp only [effect, exec_ldVxK_some h]

theorem effect_ldVxK_none {x : Nibble} {s : State} (h : firstKeyDown s.keys = none) :
    effect (.ldVxK x) s = .ok s := by
  simp only [effect, exec_ldVxK_none h]

theorem exec_eq_complete_effect (i : Instr) (s : State) : exec i s = complete s (effect i s) := by
  cases i
  case ldVxK x =>
    cases h : firstKeyDown s.keys
    case none => rw [effect_ldVxK_none h, exec_ldVxK_none h, complete_ok]
    case some => rw [effect_ldVxK_some h, exec_ldVxK_some h, complete_ok]
  all_goals rfl

theorem map_eq_ok_iff {α β : Type} {f : α → β} {r : Except FatalError α} {b : β} :
    r.map f = .ok b ↔ ∃ a, r = .ok a ∧ f a = b := by
  cases r <;> simp [Except.map]

theorem map_eq_error_iff {α β : Type} {f : α → β} {r : Except FatalError α} {e : FatalError} :
    r.map f = .error e ↔ r = .error e := by
  cases r <;> simp [Except.map]

/-! ### The errors -/

/-- An operation that raises one error under a condition, and completes otherwise, raises that error only. -/
theorem eq_error_iff {α : Type} {r : Except FatalError α} {raises : Prop} {e₀ e : FatalError}
    (hraises : raises → r = .error e₀) (hcompletes : ¬ raises → ∃ a, r = .ok a) :
    r = .error e ↔ raises ∧ e = e₀ := by
  by_cases h : raises
  · rw [hraises h, Except.error.injEq]
    exact ⟨fun he => ⟨h, he.symm⟩, fun ⟨_, he⟩ => he.symm⟩
  · obtain ⟨a, ha⟩ := hcompletes h
    simp [ha, h]

theorem State.pushReturn_eq_error_iff {s : State} {e : FatalError} :
    s.pushReturn = .error e ↔ s.sp.val = 16 ∧ e = .stackOverflow s.pc :=
  eq_error_iff s.pushReturn_error fun h => ⟨_, s.pushReturn_ok (by omega)⟩

theorem State.popReturn_eq_error_iff {s : State} {e : FatalError} :
    s.popReturn = .error e ↔ s.sp.val = 0 ∧ e = .stackUnderflow s.pc :=
  eq_error_iff s.popReturn_error fun h => ⟨_, s.popReturn_ok (by omega)⟩

theorem storeBytes_eq_error_iff {m : Memory} {a n : Nat} {bs : List Byte} {e : FatalError} (hn : bs.length = n) :
    storeBytes m a bs = .error e ↔ LeavesMemory a n ∧ e = .memoryOutOfBounds (firstBadAddress a) := by
  subst hn
  cases bs with
  | nil => simp [storeBytes, LeavesMemory]
  | cons b bs =>
    refine eq_error_iff (fun ⟨_, hleaves⟩ => storeBytes_error _ m a (List.cons_ne_nil b bs) hleaves) fun hfits => ?_
    obtain ⟨m', hstore, -, -⟩ := storeBytes_ok (b :: bs) m a (not_lt.mp fun h => hfits ⟨Nat.succ_pos _, h⟩)
    exact ⟨m', hstore⟩

theorem loadBytes_eq_error_iff {m : Memory} {a n : Nat} {e : FatalError} :
    loadBytes m a (n + 1) = .error e ↔ LeavesMemory a (n + 1) ∧ e = .memoryOutOfBounds (firstBadAddress a) :=
  eq_error_iff (fun ⟨hpos, hleaves⟩ => loadBytes_error _ m a hpos hleaves)
    fun hfits => ⟨_, loadBytes_ok _ m a (not_lt.mp fun h => hfits ⟨Nat.succ_pos n, h⟩)⟩

theorem drawRows_eq_error_iff {m : Memory} {a n : Nat} {vx vy : Byte} {fb : Framebuffer} {hit : Bool} {e : FatalError} :
    drawRows m a vx vy (List.range n) fb hit = .error e ↔
      LeavesMemory a n ∧ e = .memoryOutOfBounds (firstBadAddress a) := by
  refine eq_error_iff (fun ⟨hpos, hleaves⟩ => ?_) fun hfits => drawRows_ok _ fb hit fun r hr => ?_
  · rw [List.range_eq_range']
    exact drawRows_error 0 n fb hit hpos hleaves (.inl rfl)
  · have hr : r < n := List.mem_range.mp hr
    by_contra hleaves
    exact hfits ⟨by omega, show 4096 < a + n by omega⟩

theorem keyDown_eq_error_iff {p : KeyRangePolicy} {keys : Word} {v : Byte} {e : FatalError} :
    keyDown p keys v = .error e ↔ 0xF < v.toNat ∧ p = .fatal ∧ e = .keyIndexOutOfRange v := by
  rw [← and_assoc]
  refine eq_error_iff (fun ⟨hkey, hp⟩ => hp ▸ keyDown_fatal hkey) fun h => ?_
  by_cases hkey : v.toNat ≤ 0xF
  · exact ⟨_, keyDown_in_range hkey⟩
  · have hkey : 0xF < v.toNat := not_le.mp hkey
    cases p
    case fatal => exact absurd ⟨hkey, rfl⟩ h
    case mask4 => exact ⟨_, keyDown_mask4 hkey⟩
    case notPressed => exact ⟨_, keyDown_notPressed hkey⟩

/-- The eight instructions with an error go to the operation that raises it; the others compute a state. -/
theorem effect_eq_error_iff {i : Instr} {s : State} {e : FatalError} : effect i s = .error e ↔ Raises i s e := by
  cases i
  case ret => exact State.popReturn_eq_error_iff
  case call => exact map_eq_error_iff.trans State.pushReturn_eq_error_iff
  case drw => exact map_eq_error_iff.trans drawRows_eq_error_iff
  case skp | sknp => exact map_eq_error_iff.trans keyDown_eq_error_iff
  case ldB => exact map_eq_error_iff.trans (storeBytes_eq_error_iff rfl)
  case ldMemVx x => exact map_eq_error_iff.trans (storeBytes_eq_error_iff (s.firstVs_length x))
  case ldVxMem => exact map_eq_error_iff.trans loadBytes_eq_error_iff
  case ldVxK x =>
    cases h : firstKeyDown s.keys
    case none => simp [effect_ldVxK_none h, Raises]
    case some => simp [effect_ldVxK_some h, Raises]
  all_goals exact ⟨nofun, False.elim⟩

/-- An instruction that raises nothing computes the state it answers. -/
theorem effect_eq_ok_of_exec {i : Instr} {s t : State} (hraises : ∀ e, ¬ Raises i s e) (hexec : exec i s = .next t) :
    effect i s = .ok t := by
  rw [exec_eq_complete_effect] at hexec
  rcases complete_next hexec with hok | ⟨e, herror, -⟩
  · exact hok
  · exact absurd (effect_eq_error_iff.mp herror) (hraises e)

theorem not_raises_of_effect_eq_ok {i : Instr} {s t : State} (h : effect i s = .ok t) (e : FatalError) :
    ¬ Raises i s e := by
  rw [← effect_eq_error_iff, h]
  nofun

/-! ### The parts an instruction writes -/

/-- The parts of the state an instruction writes when it completes (10_state.md, sections 2 to 7). -/
def partsWritten : Instr → List Part
  | .cls => [.fb, .pc]
  | .ret => [.pc, .stack]
  | .call _ => [.stack, .pc]
  | .sys _ | .jp _ | .jpV0 _ | .seImm _ _ | .sneImm _ _ | .seReg _ _ | .sneReg _ _ | .skp _ | .sknp _ => [.pc]
  | .ldImm _ _ | .addImm _ _ | .ldReg _ _ | .orReg _ _ | .andReg _ _ | .xorReg _ _ | .addReg _ _ | .subReg _ _
  | .shr _ _ | .subn _ _ | .shl _ _ | .ldVxDt _ | .ldVxK _ | .ldVxMem _ => [.v, .pc]
  | .rnd _ _ => [.rng, .v, .pc]
  | .drw _ _ _ => [.fb, .v, .pc]
  | .ldI _ | .addI _ | .ldF _ => [.i, .pc]
  | .ldB _ | .ldMemVx _ => [.mem, .pc]
  | .ldDtVx _ => [.dt, .pc]
  | .ldStVx _ => [.st, .pc]

theorem partsWritten_subset (i : Instr) : partsWritten i ⊆ [.mem, .v, .i, .pc, .stack, .dt, .st, .fb, .rng] := by
  cases i <;> simp [partsWritten]

theorem mem_mem_partsWritten {i : Instr} :
    .mem ∈ partsWritten i ↔ (∃ x, i = .ldB x) ∨ ∃ x, i = .ldMemVx x := by
  cases i <;> simp [partsWritten]

theorem i_mem_partsWritten {i : Instr} :
    .i ∈ partsWritten i ↔ (∃ nnn, i = .ldI nnn) ∨ (∃ x, i = .addI x) ∨ ∃ x, i = .ldF x := by
  cases i <;> simp [partsWritten]

theorem stack_mem_partsWritten {i : Instr} : .stack ∈ partsWritten i ↔ (∃ nnn, i = .call nnn) ∨ i = .ret := by
  cases i <;> simp [partsWritten]

theorem dt_mem_partsWritten {i : Instr} : .dt ∈ partsWritten i ↔ ∃ x, i = .ldDtVx x := by
  cases i <;> simp [partsWritten]

theorem st_mem_partsWritten {i : Instr} : .st ∈ partsWritten i ↔ ∃ x, i = .ldStVx x := by
  cases i <;> simp [partsWritten]

theorem fb_mem_partsWritten {i : Instr} : .fb ∈ partsWritten i ↔ i = .cls ∨ ∃ x y n, i = .drw x y n := by
  cases i <;> simp [partsWritten]

theorem rng_mem_partsWritten {i : Instr} : .rng ∈ partsWritten i ↔ ∃ x kk, i = .rnd x kk := by
  cases i <;> simp [partsWritten]

theorem State.pushReturn_eq_ok {s t : State} (h : s.pushReturn = .ok t) :
    ∃ hsp : s.sp.val < 16, t = s.pushed hsp := by
  by_cases hsp : s.sp.val < 16
  · rw [State.pushReturn_eq_pushed hsp] at h
    cases h
    exact ⟨hsp, rfl⟩
  · rw [s.pushReturn_error (by omega)] at h
    cases h

theorem State.popReturn_eq_ok {s t : State} (h : s.popReturn = .ok t) :
    ∃ hsp : 0 < s.sp.val, t = s.popped hsp := by
  by_cases hsp : 0 < s.sp.val
  · rw [State.popReturn_eq_popped hsp] at h
    cases h
    exact ⟨hsp, rfl⟩
  · rw [s.popReturn_error (by omega)] at h
    cases h

theorem loadBytes_length {m : Memory} {a n : Nat} {bs : List Byte} (h : loadBytes m a n = .ok bs) :
    bs.length = n := by
  induction n generalizing a bs with
  | zero => cases h; rfl
  | succ n ih =>
    unfold loadBytes at h
    split at h
    · cases h
    · split at h
      · cases h
      · rename_i rest hrest
        cases h
        rw [List.length_cons, ih hrest]

section
variable {i : Instr} {s t : State}

/-- A completed LD Vx, K wrote a key number, or changed nothing. -/
theorem effect_ldVxK_eq_ok {x : Nibble} (h : effect (.ldVxK x) s = .ok t) :
    t = s ∨ ∃ b, t = (s.writeV x b).advance := by
  cases hscan : firstKeyDown s.keys
  case none =>
    rw [effect_ldVxK_none hscan] at h
    cases h
    exact .inl rfl
  case some =>
    rw [effect_ldVxK_some hscan] at h
    cases h
    exact .inr ⟨_, rfl⟩

/-- The split is by instruction: each writes by named updates, whose frames are put together. -/
theorem frame_of_effect_eq_ok (h : effect i s = .ok t) : Frame (partsWritten i) s t := by
  cases i
  case ret => obtain ⟨hsp, rfl⟩ := State.popReturn_eq_ok h; exact s.frame_popped hsp
  case call =>
    obtain ⟨u, hpush, rfl⟩ := map_eq_ok_iff.mp h
    obtain ⟨hsp, rfl⟩ := State.pushReturn_eq_ok hpush
    exact (s.frame_pushed hsp).trans (State.frame_setPc _ _)
  case drw =>
    obtain ⟨q, -, rfl⟩ := map_eq_ok_iff.mp h
    exact ((s.frame_setFb _).trans (State.frame_writeV _ _ _)).advance
  case skp | sknp => obtain ⟨down, -, rfl⟩ := map_eq_ok_iff.mp h; exact s.frame_skipIf _
  case ldB | ldMemVx => obtain ⟨m, -, rfl⟩ := map_eq_ok_iff.mp h; exact (s.frame_setMem m).advance
  case ldVxMem => obtain ⟨bs, -, rfl⟩ := map_eq_ok_iff.mp h; exact (s.frame_writeVs 0 bs).advance
  case ldVxK x =>
    rcases effect_ldVxK_eq_ok h with rfl | ⟨b, rfl⟩
    · exact Frame.refl _ _
    · exact s.frame_writeV_advance x b
  case cls => cases h; exact (s.frame_setFb _).advance
  case sys => cases h; exact s.frame_advance
  case jp | jpV0 => cases h; exact s.frame_setPc _
  case seImm | sneImm | seReg | sneReg => cases h; exact s.frame_skipIf _
  case ldImm | addImm | ldReg | orReg | andReg | xorReg | ldVxDt => cases h; exact s.frame_writeV_advance _ _
  case addReg | subReg | shr | subn | shl => cases h; exact (s.frame_writeVFlag _ _ _).advance
  case rnd => cases h; exact ((s.frame_setRng _).trans (State.frame_writeV _ _ _)).advance
  case ldI | addI | ldF => cases h; exact s.frame_setI_advance _
  case ldDtVx => cases h; exact (s.frame_setDt _).advance
  case ldStVx => cases h; exact (s.frame_setSt _).advance

/-- What no instruction that completes changes (10_state.md, sections 2 to 7). -/
theorem completed_frame (h : effect i s = .ok t) : Frame [.mem, .v, .i, .pc, .stack, .dt, .st, .fb, .rng] s t :=
  (frame_of_effect_eq_ok h).mono (partsWritten_subset i)

/-- The registers an instruction does not name keep their bytes (10_state.md R34). -/
theorem readV_of_effect_eq_ok (h : effect i s = .ok t) {r : Nibble} (hr : writesV i r = false) :
    t.readV r = s.readV r := by
  have hframe := frame_of_effect_eq_ok h
  cases i
  case ldImm | addImm | ldReg | orReg | andReg | xorReg | ldVxDt =>
    cases h
    rw [writesV, beq_eq_false_iff_ne] at hr
    rw [State.advance_readV, State.writeV_readV, if_neg hr]
  case rnd =>
    cases h
    rw [writesV, beq_eq_false_iff_ne] at hr
    rw [State.advance_readV, State.writeV_readV, if_neg hr, State.setRng_readV]
  case addReg | subReg | shr | subn | shl =>
    cases h
    rw [writesV, Bool.or_eq_false_iff, beq_eq_false_iff_ne, beq_eq_false_iff_ne] at hr
    obtain ⟨hx, hF⟩ := hr
    rw [State.advance_readV, State.writeVFlag_readV, if_neg hF, if_neg hx]
  case drw =>
    obtain ⟨q, -, rfl⟩ := map_eq_ok_iff.mp h
    rw [writesV, beq_eq_false_iff_ne] at hr
    rw [State.advance_readV, State.writeV_readV, if_neg hr, State.setFb_readV]
  case ldVxK x =>
    rw [writesV, beq_eq_false_iff_ne] at hr
    rcases effect_ldVxK_eq_ok h with rfl | ⟨b, rfl⟩
    · rfl
    · rw [State.advance_readV, State.writeV_readV, if_neg hr]
  case ldVxMem x =>
    obtain ⟨bs, hload, rfl⟩ := map_eq_ok_iff.mp h
    rw [writesV, decide_eq_false_iff_not] at hr
    rw [State.advance_readV, State.writeVs_readV, loadBytes_length hload, if_neg (by omega)]
  all_goals exact hframe .v (by simp [partsWritten]) r

end

/-! ### The costs -/

/-- The state with another budget and cost table. -/
def State.withCosts (b : Int) (c : CostTable) (s : State) : State :=
  { s with budget := b, params := { s.params with costs := c } }

theorem map_eq_map_map {α β γ : Type} {f : α → γ} {g : α → β} {h : β → γ} {r : Except FatalError α}
    (hf : ∀ a, f a = h (g a)) : r.map f = (r.map g).map h := by
  cases r
  case error => rfl
  case ok a => exact congrArg Except.ok (hf a)

theorem State.writeVs_withCosts (b : Int) (c : CostTable) (s : State) (x : Nat) (bs : List Byte) :
    (s.withCosts b c).writeVs x bs = (s.writeVs x bs).withCosts b c := by
  induction bs generalizing s x with
  | nil => rfl
  | cons byte bs ih =>
    rw [State.writeVs, State.writeVs, ← ih]
    congr 1
    split <;> rfl

theorem State.pushReturn_withCosts (b : Int) (c : CostTable) (s : State) :
    (s.withCosts b c).pushReturn = s.pushReturn.map (State.withCosts b c) := by
  by_cases h : s.sp.val < 16
  · rw [State.pushReturn_eq_pushed h, State.pushReturn_eq_pushed (s := s.withCosts b c) h]
    rfl
  · rw [s.pushReturn_error (by omega), (s.withCosts b c).pushReturn_error (show s.sp.val = 16 by omega)]
    rfl

theorem State.popReturn_withCosts (b : Int) (c : CostTable) (s : State) :
    (s.withCosts b c).popReturn = s.popReturn.map (State.withCosts b c) := by
  by_cases h : 0 < s.sp.val
  · rw [State.popReturn_eq_popped h, State.popReturn_eq_popped (s := s.withCosts b c) h]
    rfl
  · rw [s.popReturn_error (by omega), (s.withCosts b c).popReturn_error (show s.sp.val = 0 by omega)]
    rfl

/-- No meaning looks at the budget or at the costs, so that they pass through it. -/
theorem effect_withCosts (i : Instr) (s : State) (b : Int) (c : CostTable) :
    effect i (s.withCosts b c) = (effect i s).map (State.withCosts b c) := by
  cases i
  case ret => exact s.popReturn_withCosts b c
  case call =>
    simp only [effect, State.pushReturn_withCosts]
    cases s.pushReturn <;> rfl
  case drw | skp | sknp | ldB | ldMemVx => exact map_eq_map_map fun _ => rfl
  case ldVxMem => exact map_eq_map_map fun bs => congrArg State.advance (State.writeVs_withCosts b c s 0 bs)
  case ldVxK x =>
    cases h : firstKeyDown s.keys
    case none => rw [effect_ldVxK_none h, effect_ldVxK_none (s := s.withCosts b c) h]; rfl
    case some => rw [effect_ldVxK_some h, effect_ldVxK_some (s := s.withCosts b c) h]; rfl
  all_goals rfl

end Sys2Proof.Machine

namespace Sys2Proof

open Machine

/-- Settles O36: an instruction's effect is a state or an error, and it is an error exactly where R370 says. -/
theorem onlyTheseErrors : Obligations.OnlyTheseErrors := by
  unfold Obligations.OnlyTheseErrors
  intro i s
  rw [exec_eq_complete_effect]
  cases h : effect i s
  case ok t => exact ⟨t, rfl, .inl ⟨completed_frame h .status (by decide), not_raises_of_effect_eq_ok h⟩⟩
  case error e => exact ⟨_, rfl, .inr ⟨e, effect_eq_error_iff.mp h, rfl⟩⟩

/-- Settles O37: the frame of the parts each instruction writes, of which the lemmas `…_mem_partsWritten` name the
writers. -/
theorem writersOfEachPart : Obligations.WritersOfEachPart := by
  unfold Obligations.WritersOfEachPart
  intro i s t hraises hexec
  have heffect := effect_eq_ok_of_exec hraises hexec
  have hframe := frame_of_effect_eq_ok heffect
  refine ⟨completed_frame heffect, fun r hr => readV_of_effect_eq_ok heffect hr, fun hldB hldMemVx => ?mem,
    fun hldI haddI hldF => ?i, fun hcall => ?stack, fun hcall hret => ?sp, fun hldDtVx => ?dt, fun hldStVx => ?st,
    fun hcls hdrw => ?fb, fun hrnd => ?rng⟩
  case mem => exact hframe .mem (by simp [mem_mem_partsWritten, hldB, hldMemVx])
  case i => exact hframe .i (by simp [i_mem_partsWritten, hldI, haddI, hldF])
  case stack =>
    by_cases hret : i = .ret
    · subst hret
      obtain ⟨hsp, rfl⟩ := State.popReturn_eq_ok heffect
      rfl
    · exact (hframe .stack (by simp [stack_mem_partsWritten, hcall, hret])).1
  case sp => exact (hframe .stack (by simp [stack_mem_partsWritten, hcall, hret])).2
  case dt => exact hframe .dt (by simp [dt_mem_partsWritten, hldDtVx])
  case st => exact hframe .st (by simp [st_mem_partsWritten, hldStVx])
  case fb => exact fb_eq_of_fbRead (hframe .fb (by simp [fb_mem_partsWritten, hcls, hdrw]))
  case rng => exact hframe .rng (by simp [rng_mem_partsWritten, hrnd])

/-- Settles O38: the effect in the second state is the first effect with the other budget and costs. -/
theorem effectsIgnoreCosts : Obligations.EffectsIgnoreCosts := by
  unfold Obligations.EffectsIgnoreCosts
  intro i s b c
  have hcosts := effect_withCosts i s b c
  rw [exec_eq_complete_effect i s,
    exec_eq_complete_effect i { s with budget := b, params := { s.params with costs := c } }]
  cases h : effect i s
  case ok t =>
    rw [h] at hcosts
    refine ⟨t, t.withCosts b c, rfl, congrArg (complete _) hcosts, fun _ => rfl, fun e he => ?_⟩
    exact absurd he (not_raises_of_effect_eq_ok h e)
  case error e =>
    rw [h] at hcosts
    have hraises := effect_eq_error_iff.mp h
    refine ⟨_, _, rfl, congrArg (complete _) hcosts, fun hnone => absurd hraises (hnone e), fun e' he' => ?_⟩
    have heq : e = e' := Except.error.inj (h.symm.trans (effect_eq_error_iff.mpr he'))
    exact heq ▸ ⟨rfl, rfl⟩

end Sys2Proof
end

section
/-! Steps (48_frame_stepper.md): what an instruction step of a Running core can do, and what a step inside a frame can
do; the statements on single steps and on whole frames follow from it. -/

namespace Sys2Proof.Machine

/-! ### One instruction step -/

theorem instructionStep_fetch_error {s : State} (h : 4096 ≤ s.pc.toNat + 1) :
    instructionStep s = .next (s.raise (.programCounterOutOfBounds s.pc)) := by
  simp only [instructionStep, State.fetch_error h]

section
variable {s t : State}

theorem instructionStep_decode_error {w : Word} (hpc : s.pc.toNat + 1 < 4096)
    (hdec : decode (wordOfBytes (Memory.read s.mem s.pc.toNat) (Memory.read s.mem (s.pc.toNat + 1))) =
      .invalidOpcode w) :
    instructionStep s = .next (s.raise (.invalidOpcode w)) := by
  simp only [instructionStep, State.fetch_ok hpc, hdec]

theorem instructionStep_of_exec {i : Instr} {u : State} (hpc : s.pc.toNat + 1 < 4096)
    (hdec : decode (wordOfBytes (Memory.read s.mem s.pc.toNat) (Memory.read s.mem (s.pc.toNat + 1))) = .instr i)
    (hexec : exec i { s with phase := .executing } = .next u) :
    instructionStep s = .next (u.charge i.operation) := by
  simp only [instructionStep, State.fetch_ok hpc, hdec, hexec]

/-- The state after a fatal error taken in an instruction step that began in `s` (48_frame_stepper.md R358). -/
def Aborted (s t : State) : Prop := ∃ u e, t = State.raise u e ∧ u.params = s.params ∧ u.requests = s.requests

/-- The state after an instruction step from `s` that completed its instruction and charged it (R345). -/
def Executed (s t : State) : Prop :=
  ∃ i u, s.pc.toNat + 1 < 4096 ∧
    decode (wordOfBytes (Memory.read s.mem s.pc.toNat) (Memory.read s.mem (s.pc.toNat + 1))) = .instr i ∧
    effect i { s with phase := .executing } = .ok u ∧
    t = { u with budget := s.budget - (s.params.cost i.operation : Int)
                 phase := loopPhase (s.budget - (s.params.cost i.operation : Int)) }

/-- A completed instruction of a Running core is charged. -/
theorem State.charge_of_effect_eq_ok {i : Instr} {u : State} (hrun : s.status = .running)
    (h : effect i { s with phase := .executing } = .ok u) :
    u.charge i.operation =
      { u with budget := s.budget - (s.params.cost i.operation : Int)
               phase := loopPhase (s.budget - (s.params.cost i.operation : Int)) } := by
  have hframe := completed_frame h
  have hstatus : u.status = .running := Eq.trans (hframe .status (by decide)) hrun
  have hbudget : u.budget = s.budget := hframe .budget (by decide)
  have hparams : u.params = s.params := hframe .params (by decide)
  rw [State.charge_running _ _ hstatus, hbudget, hparams]

/-- Everything an instruction step of a Running core can do: it always answers a next state. -/
theorem instructionStep_cases (hrun : s.status = .running) :
    ∃ t, instructionStep s = .next t ∧ (Aborted s t ∨ Executed s t) := by
  by_cases hpc : s.pc.toNat + 1 < 4096
  · cases hdec : decode (wordOfBytes (Memory.read s.mem s.pc.toNat) (Memory.read s.mem (s.pc.toNat + 1)))
    case invalidOpcode w => exact ⟨_, instructionStep_decode_error hpc hdec, .inl ⟨s, _, rfl, rfl, rfl⟩⟩
    case instr i =>
      have hexec := exec_eq_complete_effect i { s with phase := .executing }
      cases heffect : effect i { s with phase := .executing }
      case ok u =>
        rw [heffect] at hexec
        refine ⟨_, instructionStep_of_exec hpc hdec hexec, .inr ⟨i, u, hpc, hdec, heffect, ?_⟩⟩
        exact State.charge_of_effect_eq_ok hrun heffect
      case error e =>
        rw [heffect] at hexec
        exact ⟨_, instructionStep_of_exec hpc hdec hexec, .inl ⟨_, e, State.charge_faulted _ _ e rfl, rfl, rfl⟩⟩
  · exact ⟨_, instructionStep_fetch_error (by omega), .inl ⟨s, _, rfl, rfl, rfl⟩⟩

theorem aborted_or_executed_of_instructionStep (hrun : s.status = .running) (h : instructionStep s = .next t) :
    Aborted s t ∨ Executed s t := by
  obtain ⟨t', hstep, hcases⟩ := instructionStep_cases hrun
  cases h.symm.trans hstep
  exact hcases

theorem Aborted.status_ne_running (h : Aborted s t) : t.status ≠ .running := by
  obtain ⟨u, e, rfl, -, -⟩ := h
  nofun

/-- Beside the parts its instruction writes, an instruction step that completes changes budget and phase only. -/
theorem Executed.frame_partsWritten (h : Executed s t) :
    ∃ i, decode (wordOfBytes (Memory.read s.mem s.pc.toNat) (Memory.read s.mem (s.pc.toNat + 1))) = .instr i ∧
      Frame (partsWritten i ++ [.budget, .phase]) s t := by
  obtain ⟨i, u, -, hdec, heffect, rfl⟩ := h
  have hbegin : Frame [.phase] s { s with phase := .executing } := by
    intro p hp
    cases p
    case phase => simp at hp
    all_goals simp [Part.Same]
  have hend (b : Int) (p : Phase) : Frame [.budget, .phase] u { u with budget := b, phase := p } := by
    intro q hq
    cases q
    case budget | phase => simp at hq
    all_goals simp [Part.Same, State.readV]
  exact ⟨i, hdec, ((hbegin.trans (frame_of_effect_eq_ok heffect)).trans (hend _ _)).mono (by simp)⟩

theorem Executed.frame (h : Executed s t) :
    Frame [.mem, .v, .i, .pc, .stack, .dt, .st, .fb, .rng, .budget, .phase] s t := by
  obtain ⟨i, -, hframe⟩ := h.frame_partsWritten
  refine hframe.mono (List.append_subset.mpr ⟨?_, by decide⟩)
  exact List.subset_append_of_subset_left [.budget, .phase] (partsWritten_subset i)

/-! ### One step -/

/-- Everything a step inside a frame can do, if it answers a next state: only a Running core has one. -/
theorem step_inside_frame (hphase : s.phase ≠ .idle) (h : step s = .next t) :
    s.status = .running ∧
      (((s.phase = .executing ∨ s.phase = .fetching ∧ 0 < s.budget) ∧ (Aborted s t ∨ Executed s t)) ∨
       (s.phase = .fetching ∧ s.budget ≤ 0 ∧ t = { s with phase := .frameComplete }) ∨
       (s.phase = .frameComplete ∧ t = s.endFrame)) := by
  have hrun : s.status = .running := by
    cases hstatus : s.status
    case running => rfl
    case faulted e =>
      rw [step_faulted hphase hstatus] at h
      cases h
  refine ⟨hrun, ?_⟩
  cases hp : s.phase
  case idle => exact absurd hp hphase
  case fetching =>
    rw [step_fetching hp hrun] at h
    by_cases hbudget : 0 < s.budget
    · rw [frameLoop_pos hbudget] at h
      exact .inl ⟨.inr ⟨rfl, hbudget⟩, aborted_or_executed_of_instructionStep hrun h⟩
    · rw [frameLoop_nonpos (by omega)] at h
      cases h
      exact .inr (.inl ⟨rfl, by omega, rfl⟩)
  case executing =>
    rw [step_executing hp hrun] at h
    exact .inl ⟨.inl rfl, aborted_or_executed_of_instructionStep hrun h⟩
  case frameComplete =>
    rw [step_frameComplete hp hrun] at h
    cases h
    exact .inr (.inr ⟨rfl, rfl⟩)

theorem step_fetching_pos (hphase : s.phase = .fetching) (hrun : s.status = .running) (hbudget : 0 < s.budget) :
    step s = instructionStep s := by
  rw [step_fetching hphase hrun, frameLoop_pos hbudget]

theorem hostTurn_construct {seed : Seed} {later : List HostRequest} (hreq : s.requests = .construct seed :: later) :
    hostTurn s = .next (State.construct s.params seed later) := by
  simp only [hostTurn, hreq]

theorem hostTurn_nil (hreq : s.requests = []) : hostTurn s = .next s := by
  simp only [hostTurn, hreq]

theorem hostTurn_stepFrame_faulted {e : FatalError} {keys : Word} {later : List HostRequest}
    (hstatus : s.status = .faulted e) (hreq : s.requests = .stepFrame keys :: later) :
    hostTurn s = .fault (.coreFaulted e) := by
  simp only [hostTurn, hreq, hstatus]

theorem hostTurn_loadProgram_faulted {e : FatalError} {bytes : List Byte} {later : List HostRequest}
    (hstatus : s.status = .faulted e) (hreq : s.requests = .loadProgram bytes :: later) :
    hostTurn s = .fault (.coreFaulted e) := by
  simp only [hostTurn, hreq, hstatus]

theorem hostTurn_running (hrun : s.status = .running) : ∃ t, hostTurn s = .next t := by
  cases hreq : s.requests with
  | nil => exact ⟨_, hostTurn_nil hreq⟩
  | cons request later =>
    cases request
    case construct => exact ⟨_, hostTurn_construct hreq⟩
    case loadProgram => exact ⟨_, hostTurn_loadProgram hrun hreq⟩
    case stepFrame => exact ⟨_, hostTurn_stepFrame hrun hreq⟩
    case readFramebuffer => exact ⟨_, hostTurn_readFramebuffer hreq⟩

theorem State.loadProgram_eq (s : State) (bytes : List Byte) :
    ∃ m reply, s.loadProgram bytes = { s with mem := m, reply := some reply } ∧
      (Memory.wf s.mem = true → Memory.wf m = true) := by
  by_cases hfits : bytes.length ≤ 3584
  · obtain ⟨m, hload, hwf, -⟩ := State.loadProgram_fits (s := s) hfits
    exact ⟨m, _, hload, hwf⟩
  · exact ⟨s.mem, _, State.loadProgram_too_large (by omega), id⟩

/-! ### Whole frames -/

/-- The end of a StepFrame: the host has the frame or the fatal error, and its other requests wait. -/
def FrameOver (later : List HostRequest) (t : State) : Prop :=
  t.phase = .idle ∧ t.requests = later ∧
    ((t.status = .running ∧ t.reply = some (.frame t.fb t.tone)) ∨
     (∃ e, t.status = .faulted e ∧ t.reply = some (.failed e)))

theorem frameOver_endFrame (hrun : s.status = .running) : FrameOver s.requests s.endFrame :=
  ⟨rfl, rfl, .inl ⟨hrun, rfl⟩⟩

theorem Aborted.frameOver (h : Aborted s t) : FrameOver s.requests t := by
  obtain ⟨u, e, rfl, -, hrequests⟩ := h
  exact ⟨rfl, hrequests, .inr ⟨e, rfl, rfl⟩⟩

theorem Executed.budget_lt (h : Executed s t) : t.budget < s.budget := by
  obtain ⟨i, u, -, -, -, rfl⟩ := h
  obtain ⟨hcost, -⟩ := Params.cost_bounds s.params i.operation
  show s.budget - (s.params.cost i.operation : Int) < s.budget
  omega

theorem Executed.phase_eq (h : Executed s t) : t.phase = loopPhase t.budget := by
  obtain ⟨i, u, -, -, -, rfl⟩ := h
  rfl

theorem run_succ (k : Nat) (h : step s = .next t) : core.run (k + 1) s = core.run k t := by
  simp only [Host.Core.run, core, h]

/-- By induction on the budget: each instruction step uses up at least one microsecond of it. -/
theorem frame_ends (n : Nat) (s : State) (hrun : s.status = .running) (hphase : s.phase = loopPhase s.budget)
    (hbudget : s.budget ≤ n) : ∃ k t, k ≤ n + 1 ∧ core.run k s = .next t ∧ FrameOver s.requests t := by
  induction n generalizing s with
  | zero =>
    rw [loopPhase_nonpos hbudget] at hphase
    exact ⟨1, _, le_refl 1, run_succ 0 (step_frameComplete hphase hrun), frameOver_endFrame hrun⟩
  | succ n ih =>
    by_cases hpos : 0 < s.budget
    · rw [loopPhase_pos hpos] at hphase
      obtain ⟨t, hstep, hcases⟩ := instructionStep_cases hrun
      rw [← step_fetching_pos hphase hrun hpos] at hstep
      rcases hcases with haborted | hexecuted
      · exact ⟨1, t, by omega, run_succ 0 hstep, haborted.frameOver⟩
      · have hlt := hexecuted.budget_lt
        have hrunT : t.status = .running := Eq.trans (hexecuted.frame .status (by decide)) hrun
        have hrequests : t.requests = s.requests := hexecuted.frame .requests (by decide)
        obtain ⟨k, r, hk, hrunR, hover⟩ := ih t hrunT hexecuted.phase_eq (by push_cast at hbudget; omega)
        exact ⟨k + 1, r, by omega, (run_succ k hstep).trans hrunR, hrequests ▸ hover⟩
    · rw [loopPhase_nonpos (by omega)] at hphase
      exact ⟨1, _, by omega, run_succ 0 (step_frameComplete hphase hrun), frameOver_endFrame hrun⟩

end

/-! ### Construct -/

theorem Memory.read_nil (a : Nat) : Memory.read [] a = Config.font.getD a 0 := by
  simp [Memory.read, Memory.unlisted, Config.glyphBase]

theorem afterConstruct_construct (p : Params) (seed : Seed) (later : List HostRequest) :
    AfterConstruct seed (State.construct p seed later) := by
  refine ⟨fun k _ => Memory.read_nil k, fun a ha => ?_, fun x => ?_, rfl, rfl, fun j => ?_, rfl, rfl, rfl, rfl,
    fbRead_replicate, rfl, rfl, rfl, rfl, rfl⟩
  · exact (Memory.read_nil a).trans (List.getD_eq_default _ _ ha)
  · simp [State.construct, State.readV]
  · simp [State.construct]

end Sys2Proof.Machine

namespace Sys2Proof

open Machine

/-- Settles O39: the instruction completes and is charged, or raises its error and is not. -/
theorem stepRunsDecodedInstruction : Obligations.StepRunsDecodedInstruction := by
  unfold Obligations.StepRunsDecodedInstruction
  intro s i hphase hrun hbudget hpc hdec
  have hexec := exec_eq_complete_effect i { s with phase := .executing }
  rw [step_fetching_pos hphase hrun hbudget]
  cases heffect : effect i { s with phase := .executing }
  case ok t =>
    rw [heffect] at hexec
    have hstatus : t.status = .running := Eq.trans (completed_frame heffect .status (by decide)) hrun
    refine ⟨t, hexec, .inl ⟨hstatus, ?_⟩⟩
    rw [instructionStep_of_exec hpc hdec hexec, t.charge_running _ hstatus]
    rfl
  case error e =>
    rw [heffect] at hexec
    refine ⟨_, hexec, .inr ⟨nofun, ?_⟩⟩
    rw [instructionStep_of_exec hpc hdec hexec, State.charge_faulted _ _ e rfl]

/-- Settles O40: fetch and decode come before the instruction. -/
theorem fetchAndDecodeErrors : Obligations.FetchAndDecodeErrors := by
  unfold Obligations.FetchAndDecodeErrors
  intro s hphase hrun hbudget
  rw [step_fetching_pos hphase hrun hbudget]
  exact ⟨fun hpc => ⟨_, instructionStep_fetch_error hpc, s.raise_raised _⟩,
    fun hpc _ hdec => ⟨_, instructionStep_decode_error hpc hdec, s.raise_raised _⟩⟩

/-- Settles O43: the start of the frame, and then `frame_ends` from a budget of at most 16666. -/
theorem everyFrameEnds : Obligations.EveryFrameEnds := by
  unfold Obligations.EveryFrameEnds
  intro s keys later hidle hrun hbudget hreq
  have hstep : step s = .next (({ s with requests := later } : State).beginFrame keys) := by
    rw [step_idle hidle, hostTurn_stepFrame hrun hreq]
  have hstart : (({ s with requests := later } : State).beginFrame keys).budget ≤ (16666 : Nat) := by
    rw [State.beginFrame_budget]
    show s.budget + 16666 ≤ _
    omega
  obtain ⟨k, t, hk, hrunT, hover⟩ := frame_ends 16666 (State.beginFrame { s with requests := later } keys) hrun
    (State.beginFrame_phase _ keys) hstart
  exact ⟨k + 1, t, by omega, (run_succ k hstep).trans hrunT, hover⟩

/-- Settles O44: COST(DRW) is larger than the budget. -/
theorem drawEndsFrame : Obligations.DrawEndsFrame := by
  unfold Obligations.DrawEndsFrame
  intro s t x y n hphase hrun hpos hbudget hpc hdec hstep hrunT
  rw [step_fetching_pos hphase hrun hpos] at hstep
  rcases aborted_or_executed_of_instructionStep hrun hstep with haborted | hexecuted
  · exact absurd hrunT haborted.status_ne_running
  · have hend := hexecuted.phase_eq
    obtain ⟨i, u, -, hdec', -, rfl⟩ := hexecuted
    cases hdec.symm.trans hdec'
    have hleft : s.budget - ((s.params.cost .drw : Nat) : Int) ≤ -6068 := by
      rw [Params.cost]
      omega
    exact ⟨hend.trans (loopPhase_nonpos (le_trans hleft (by decide))), hleft⟩

/-- Settles O45: of the steps inside a frame only an instruction step changes a timer, and of the instructions only the
writers of that timer. -/
theorem keysAndTimersInsideFrame : Obligations.KeysAndTimersInsideFrame := by
  unfold Obligations.KeysAndTimersInsideFrame
  intro s t hstep _ hrunT hphase
  obtain ⟨-, ⟨-, haborted | hexecuted⟩ | ⟨-, -, rfl⟩ | ⟨-, rfl⟩⟩ := step_inside_frame hphase hstep
  · exact absurd hrunT haborted.status_ne_running
  · obtain ⟨i, hdec, hframe⟩ := hexecuted.frame_partsWritten
    refine ⟨hexecuted.frame .keys (by decide), hexecuted.frame .tone (by decide), fun hchanged => ?dt,
      fun hchanged => ?st⟩
    case dt =>
      have hwriter : .dt ∈ partsWritten i := by
        by_contra hnot
        exact hchanged (hframe .dt (by simp [hnot]))
      obtain ⟨x, rfl⟩ := dt_mem_partsWritten.mp hwriter
      exact ⟨x, hdec⟩
    case st =>
      have hwriter : .st ∈ partsWritten i := by
        by_contra hnot
        exact hchanged (hframe .st (by simp [hnot]))
      obtain ⟨x, rfl⟩ := st_mem_partsWritten.mp hwriter
      exact ⟨x, hdec⟩
  · exact ⟨rfl, rfl, fun h => absurd rfl h, fun h => absurd rfl h⟩
  · exact ⟨rfl, rfl, fun h => absurd rfl h, fun h => absurd rfl h⟩

/-- Settles O46: State.reset is a constructed state. -/
theorem resetState : Obligations.ResetState := by
  unfold Obligations.ResetState
  exact ⟨afterConstruct_construct _ _ _, rfl, rfl⟩

/-- Settles O47: Construct is taken in either status. -/
theorem constructMakesNewCore : Obligations.ConstructMakesNewCore := by
  unfold Obligations.ConstructMakesNewCore
  intro s seed later hidle hreq
  exact ⟨_, (step_idle hidle).trans (hostTurn_construct hreq), afterConstruct_construct _ _ _, rfl, rfl, rfl⟩

/-- Settles O50: outside Idle a Faulted core has no step, and in Idle `hostTurn_next` leaves it three. -/
theorem faultedIsTerminal : Obligations.FaultedIsTerminal := by
  unfold Obligations.FaultedIsTerminal
  intro s e hstatus
  refine ⟨fun _ _ hidle hreq => (step_idle hidle).trans (hostTurn_stepFrame_faulted hstatus hreq),
    fun _ _ hidle hreq => (step_idle hidle).trans (hostTurn_loadProgram_faulted hstatus hreq), fun t hstep => ?_⟩
  by_cases hidle : s.phase = .idle
  · rw [step_idle hidle] at hstep
    obtain ⟨-, rfl⟩ | ⟨seed, later, hreq, rfl⟩ | ⟨later, -, rfl⟩ | ⟨_, _, hrun, -⟩ | ⟨_, _, hrun, -⟩ :=
      hostTurn_next hstep
    · exact .inl hstatus
    · exact .inr ⟨seed, later, hreq, rfl⟩
    · exact .inl hstatus
    · cases hstatus.symm.trans hrun
    · cases hstatus.symm.trans hrun
  · rw [step_faulted hidle hstatus] at hstep
    cases hstep

/-- Settles O51: one case for each phase. -/
theorem runningCoreAlwaysSteps : Obligations.RunningCoreAlwaysSteps := by
  unfold Obligations.RunningCoreAlwaysSteps
  intro s hrun
  obtain ⟨t, hinstr, -⟩ := instructionStep_cases hrun
  cases hphase : s.phase
  case idle => rw [step_idle hphase]; exact hostTurn_running hrun
  case fetching =>
    rw [step_fetching hphase hrun]
    by_cases hbudget : 0 < s.budget
    · exact ⟨t, (frameLoop_pos hbudget).trans hinstr⟩
    · exact ⟨_, frameLoop_nonpos (by omega)⟩
  case executing => exact ⟨t, (step_executing hphase hrun).trans hinstr⟩
  case frameComplete => exact ⟨_, step_frameComplete hphase hrun⟩

/-- Settles O54: no transaction and no instruction writes params. -/
theorem parametersFixed : Obligations.ParametersFixed := by
  unfold Obligations.ParametersFixed
  intro s t hstep
  by_cases hidle : s.phase = .idle
  · rw [step_idle hidle] at hstep
    obtain ⟨-, rfl⟩ | ⟨_, _, -, rfl⟩ | ⟨_, -, rfl⟩ | ⟨bytes, later, -, -, rfl⟩ | ⟨_, _, -, -, rfl⟩ :=
      hostTurn_next hstep
    case inr.inr.inr.inl =>
      obtain ⟨m, reply, hload, -⟩ := State.loadProgram_eq { s with requests := later } bytes
      rw [hload]
    all_goals rfl
  · obtain ⟨-, ⟨-, haborted | hexecuted⟩ | ⟨-, -, rfl⟩ | ⟨-, rfl⟩⟩ := step_inside_frame hidle hstep
    · obtain ⟨u, e, rfl, hparams, -⟩ := haborted
      exact hparams
    · exact hexecuted.frame .params (by decide)
    · rfl
    · rfl

end Sys2Proof
end

section
/-! The invariant of the machine (10_state.md, sections 4 and 7): it holds after Construct, and every step keeps it. -/

namespace Sys2Proof.Machine

variable {i : Instr} {s t u : State}

/-! ### What a completed instruction leaves in memory, pc and the stack -/

theorem wf_of_storeBytes_eq_ok {m m' : Memory} {a : Nat} {bs : List Byte} (h : storeBytes m a bs = .ok m')
    (hm : Memory.wf m = true) : Memory.wf m' = true := by
  induction bs generalizing m a with
  | nil => cases h; exact hm
  | cons b bs ih =>
    by_cases ha : a < Config.memSize
    · rw [storeBytes, memWrite_ok ha] at h
      exact ih h (Memory.wf_write b ha hm)
    · rw [storeBytes, memWrite_error (not_lt.mp ha)] at h
      cases h

/-- Only the two stores write memory, and a store keeps its form. -/
theorem wf_mem_of_effect_eq_ok (h : effect i s = .ok t) (hm : Memory.wf s.mem = true) : Memory.wf t.mem = true := by
  cases i
  case ldB | ldMemVx =>
    obtain ⟨m, hstore, rfl⟩ := map_eq_ok_iff.mp h
    exact wf_of_storeBytes_eq_ok hstore hm
  case ret => obtain ⟨hsp, rfl⟩ := State.popReturn_eq_ok h; exact hm
  case call =>
    obtain ⟨u, hpush, rfl⟩ := map_eq_ok_iff.mp h
    obtain ⟨hsp, rfl⟩ := State.pushReturn_eq_ok hpush
    exact hm
  case drw | skp | sknp => obtain ⟨_, -, rfl⟩ := map_eq_ok_iff.mp h; exact hm
  case ldVxMem =>
    obtain ⟨bs, -, rfl⟩ := map_eq_ok_iff.mp h
    rw [State.advance_mem, State.writeVs_eq]
    exact hm
  case ldVxK => rcases effect_ldVxK_eq_ok h with rfl | ⟨b, rfl⟩ <;> exact hm
  all_goals cases h; exact hm

/-- Where a completed instruction that is fetched inside memory leaves pc: a little past the instruction, at a target
it computes, or at the entry it pops. -/
theorem pc_of_effect_eq_ok (h : effect i s = .ok t) (hpc : s.pc.toNat + 1 < 4096) :
    t.pc.toNat ≤ 0x10FE ∨ ∃ j : Fin 16, j.val < s.sp.val ∧ t.pc = s.stack[j] := by
  have hnext : (s.pc + 2).toNat ≤ 0x10FE := by
    rw [BitVec.toNat_add, show (2 : Word).toNat = 2 from rfl]
    omega
  have hskip (c : Bool) : (s.skipIf c).pc.toNat ≤ 0x10FE := by
    cases c
    case false => exact hnext
    case true =>
      rw [State.skipIf_pc, if_pos rfl, BitVec.toNat_add, show (4 : Word).toNat = 4 from rfl]
      omega
  have htarget (nnn : Addr) : (zextAddr nnn).toNat ≤ 0x10FE := by
    have := nnn.isLt
    rw [zextAddr_toNat]
    omega
  cases i
  case ret =>
    obtain ⟨hsp, rfl⟩ := State.popReturn_eq_ok h
    have hlt := s.sp.isLt
    exact .inr ⟨⟨s.sp.val - 1, by omega⟩, show s.sp.val - 1 < s.sp.val by omega, rfl⟩
  case call nnn => obtain ⟨u, -, rfl⟩ := map_eq_ok_iff.mp h; exact .inl (htarget nnn)
  case jp nnn => cases h; exact .inl (htarget nnn)
  case jpV0 nnn =>
    cases h
    have := nnn.isLt
    have := (s.readV 0#4).isLt
    rw [State.setPc_pc, zextAddr_add_zextByte_toNat]
    omega
  case seImm | sneImm | seReg | sneReg => cases h; exact .inl (hskip _)
  case skp | sknp => obtain ⟨_, -, rfl⟩ := map_eq_ok_iff.mp h; exact .inl (hskip _)
  case drw | ldB | ldMemVx => obtain ⟨_, -, rfl⟩ := map_eq_ok_iff.mp h; exact .inl hnext
  case ldVxMem =>
    obtain ⟨bs, -, rfl⟩ := map_eq_ok_iff.mp h
    rw [State.advance_pc, State.writeVs_pc]
    exact .inl hnext
  case ldVxK =>
    rcases effect_ldVxK_eq_ok h with rfl | ⟨b, rfl⟩
    · exact .inl (by omega)
    · exact .inl hnext
  all_goals cases h; exact .inl hnext

/-- Every return address in use is at most 0x1000 (10_state.md R38). -/
def ReturnsInRange (s : State) : Prop := ∀ j : Fin 16, j.val < s.sp.val → s.stack[j].toNat ≤ 0x1000

/-- CALL pushes the address past an instruction that is inside memory, RET pops, and nothing else writes the stack. -/
theorem returnsInRange_of_effect_eq_ok (h : effect i s = .ok t) (hpc : s.pc.toNat + 1 < 4096)
    (hreturns : ReturnsInRange s) : ReturnsInRange t := by
  by_cases hstack : .stack ∈ partsWritten i
  · rcases stack_mem_partsWritten.mp hstack with ⟨nnn, rfl⟩ | rfl
    · obtain ⟨u, hpush, rfl⟩ := map_eq_ok_iff.mp h
      obtain ⟨hsp, rfl⟩ := State.pushReturn_eq_ok hpush
      intro j hj
      have hlt : j.val < s.sp.val + 1 := hj
      rw [State.setPc_stack, State.pushed_stack]
      split
      · rw [BitVec.toNat_add, show (2 : Word).toNat = 2 from rfl]
        omega
      · exact hreturns j (by omega)
    · obtain ⟨hsp, rfl⟩ := State.popReturn_eq_ok h
      intro j hj
      have hlt : j.val < s.sp.val - 1 := hj
      exact hreturns j (by omega)
  · obtain ⟨hsame, hsp⟩ := frame_of_effect_eq_ok h .stack hstack
    intro j hj
    rw [hsame]
    exact hreturns j (hsp ▸ hj)

/-! ### The invariant of Running and of Faulted cores -/

theorem inv_of_running (hmem : Memory.wf s.mem = true) (hrun : s.status = .running) (hpc : s.pc.toNat ≤ 0x10FE)
    (hreturns : ReturnsInRange s) (hbudget : BudgetInRange s) : Inv s := by
  refine ⟨hmem, fun e he => ?_, fun _ => ⟨hpc, hreturns, hbudget⟩⟩
  cases hrun.symm.trans he

theorem inv_of_faulted {e : FatalError} (hmem : Memory.wf s.mem = true) (hstatus : s.status = .faulted e)
    (hphase : s.phase = .idle) : Inv s := by
  refine ⟨hmem, fun _ _ => hphase, fun hrun => ?_⟩
  cases hstatus.symm.trans hrun

theorem budgetInRange_of_idle (hphase : s.phase = .idle) :
    BudgetInRange s ↔ -22734 < s.budget ∧ s.budget ≤ 0 := by
  rw [BudgetInRange, hphase]

theorem budgetInRange_of_fetching (hphase : s.phase = .fetching) :
    BudgetInRange s ↔ 0 < s.budget ∧ s.budget ≤ 16666 := by
  rw [BudgetInRange, hphase]

theorem budgetInRange_of_frameComplete (hphase : s.phase = .frameComplete) :
    BudgetInRange s ↔ -22734 < s.budget ∧ s.budget ≤ 0 := by
  rw [BudgetInRange, hphase]

theorem not_budgetInRange_of_executing (hphase : s.phase = .executing) : ¬ BudgetInRange s := by
  rw [BudgetInRange, hphase]
  exact id

/-- At the loop check the sign of the budget picks the phase, and with it the range. -/
theorem budgetInRange_of_loopPhase (hphase : s.phase = loopPhase s.budget) (hlow : -22734 < s.budget)
    (hhigh : s.budget ≤ 16666) : BudgetInRange s := by
  by_cases hpos : 0 < s.budget
  · exact (budgetInRange_of_fetching (hphase.trans (loopPhase_pos hpos))).mpr ⟨hpos, hhigh⟩
  · have hnonpos : s.budget ≤ 0 := by omega
    exact (budgetInRange_of_frameComplete (hphase.trans (loopPhase_nonpos hnonpos))).mpr ⟨hlow, hnonpos⟩

/-! ### The steps -/

theorem inv_construct (p : Params) (seed : Seed) (later : List HostRequest) : Inv (State.construct p seed later) :=
  inv_of_running Memory.wf_nil rfl (show (0x200 : Word).toNat ≤ 0x10FE by decide)
    (fun j hj => absurd hj (Nat.not_lt_zero j))
    ((budgetInRange_of_idle rfl).mpr (show (-22734 : Int) < 0 ∧ (0 : Int) ≤ 0 by decide))

theorem Aborted.inv (h : Aborted s t) : Inv t := by
  obtain ⟨u, e, rfl, -, -⟩ := h
  exact inv_of_faulted (Memory.wf_ofCells _) rfl rfl

theorem Executed.inv (h : Executed s t) (hinv : Inv s) (hrun : s.status = .running) (hphase : s.phase = .fetching) :
    Inv t := by
  obtain ⟨hmem, -, hrunning⟩ := hinv
  obtain ⟨-, hreturns, hbudget⟩ := hrunning hrun
  obtain ⟨hpos, hhigh⟩ := (budgetInRange_of_fetching hphase).mp hbudget
  have hstatus : t.status = .running := Eq.trans (h.frame .status (by decide)) hrun
  have hloop := h.phase_eq
  have hlt := h.budget_lt
  obtain ⟨i, u, hpc, -, heffect, rfl⟩ := h
  obtain ⟨-, hcost⟩ := Params.cost_bounds s.params i.operation
  have hlow : -22734 < s.budget - (s.params.cost i.operation : Int) := by omega
  have hmemU : Memory.wf u.mem = true := wf_mem_of_effect_eq_ok heffect hmem
  have hreturnsU : ReturnsInRange u := returnsInRange_of_effect_eq_ok heffect hpc hreturns
  refine inv_of_running hmemU hstatus ?pc hreturnsU
    (budgetInRange_of_loopPhase hloop hlow (by omega))
  case pc =>
    rcases pc_of_effect_eq_ok heffect hpc with hle | ⟨j, hj, hpop⟩
    · exact hle
    · exact (congrArg BitVec.toNat hpop).le.trans ((hreturns j hj).trans (by decide))

/-- A step inside a frame: an instruction step, or the return of the frame. -/
theorem inv_step_inside_frame (hinv : Inv s) (hphase : s.phase ≠ .idle) (hstep : step s = .next t) : Inv t := by
  obtain ⟨hrun, hcases⟩ := step_inside_frame hphase hstep
  obtain ⟨hmem, -, hrunning⟩ := id hinv
  obtain ⟨hpc, hreturns, hbudget⟩ := hrunning hrun
  obtain ⟨hinstr, haborted | hexecuted⟩ | ⟨hfetching, hnonpos, -⟩ | ⟨hcomplete, rfl⟩ := hcases
  · exact haborted.inv
  · obtain hexecuting | ⟨hfetching, -⟩ := hinstr
    · exact absurd hbudget (not_budgetInRange_of_executing hexecuting)
    · exact hexecuted.inv hinv hrun hfetching
  · obtain ⟨hpos, -⟩ := (budgetInRange_of_fetching hfetching).mp hbudget
    omega
  · exact inv_of_running hmem hrun hpc hreturns
      ((budgetInRange_of_idle rfl).mpr ((budgetInRange_of_frameComplete hcomplete).mp hbudget))

/-- A step that changes memory, requests and reply only, as a load and a read of the framebuffer do. -/
theorem inv_of_transaction {m : Memory} {later : List HostRequest} {reply : Option HostReply} (hinv : Inv s)
    (hm : Memory.wf m = true) : Inv { s with mem := m, requests := later, reply := reply } := by
  obtain ⟨-, hidle, hrunning⟩ := hinv
  exact ⟨hm, hidle, hrunning⟩

theorem inv_beginFrame (hinv : Inv s) (hrun : s.status = .running) (hphase : s.phase = .idle) (keys : Word)
    (later : List HostRequest) : Inv (State.beginFrame { s with requests := later } keys) := by
  obtain ⟨hmem, -, hrunning⟩ := hinv
  obtain ⟨hpc, hreturns, hbudget⟩ := hrunning hrun
  obtain ⟨hlow, hhigh⟩ := (budgetInRange_of_idle hphase).mp hbudget
  have hgrown : (State.beginFrame { s with requests := later } keys).budget = s.budget + 16666 := rfl
  exact inv_of_running hmem hrun hpc hreturns
    (budgetInRange_of_loopPhase (State.beginFrame_phase _ keys) (by omega) (by omega))

/-- A step in Idle: one host transaction, or none. -/
theorem inv_hostTurn (hinv : Inv s) (hphase : s.phase = .idle) (hturn : hostTurn s = .next t) : Inv t := by
  obtain ⟨hmem, -⟩ := id hinv
  obtain ⟨-, rfl⟩ | ⟨seed, later, -, rfl⟩ | ⟨later, -, rfl⟩ | ⟨bytes, later, hrun, -, rfl⟩ |
    ⟨keys, later, hrun, -, rfl⟩ := hostTurn_next hturn
  · exact hinv
  · exact inv_construct _ seed later
  · exact inv_of_transaction hinv hmem
  · obtain ⟨m, reply, hload, hwf⟩ := State.loadProgram_eq { s with requests := later } bytes
    rw [hload]
    exact inv_of_transaction hinv (hwf hmem)
  · exact inv_beginFrame hinv hrun hphase keys later

theorem inv_step (hinv : Inv s) (hstep : step s = .next t) : Inv t := by
  by_cases hphase : s.phase = .idle
  · rw [step_idle hphase] at hstep
    exact inv_hostTurn hinv hphase hstep
  · exact inv_step_inside_frame hinv hphase hstep

end Sys2Proof.Machine

namespace Sys2Proof

open Machine

/-- Settles O52: State.reset is a constructed state. -/
theorem invariantAtReset : Obligations.InvariantAtReset := by
  unfold Obligations.InvariantAtReset
  exact inv_construct _ _ _

/-- Settles O53: `inv_step`, which splits a step into a host transaction and a step inside a frame. -/
theorem stepKeepsInvariant : Obligations.StepKeepsInvariant := by
  unfold Obligations.StepKeepsInvariant
  exact fun _ _ hinv hstep => inv_step hinv hstep

end Sys2Proof
end
